-- ==== Sys2Proof/Word.lean ====
section
/-! DEFINITION. The words of the block and the four values of CTRL.OP (spec 10_state.md R8, R24). -/

namespace Sys2Proof

/-- One byte of a buffer window, and one character of a text (R16, R83). -/
abbrev Byte := BitVec 8

/-- A register, and the data of a 4-byte access (R8, R51). -/
abbrev Word := BitVec 32

/-- The operation held in CTRL.OP: 0b00, 0b01, 0b10 and 0b11 in this order (R24). The field may
hold any of the four. -/
inductive Op where
  | encode
  | decode
  | validate
  | reserved
  deriving DecidableEq, Repr

/-- The two buffer windows of the address space (R50). -/
inductive Window where
  | input
  | output
  deriving DecidableEq, Repr

/-- The two sizes of a host access the block takes: 1 byte and 4 bytes (R51). -/
inductive Size where
  | byte
  | word
  deriving DecidableEq, Repr

end Sys2Proof
end

