-- ==== Sys2Proof/Config.lean ====
section
/-! DEFINITION. What an instance of the block fixes (BASE and IN_CAP, spec 00_scope.md R9, R10) and
the free values: what the spec calls unspecified, a draw under no law (93_implementation_defined.md
section 1). A free value is an opaque constant: nothing in Lean can evaluate it. -/

namespace Sys2Proof

/-- The open parameters of one instance. `base` is the platform address of offset 0 (R9); `inCap`
is the capacity IN_CAP of the input buffer in bytes (R10). OUT_CAP is derived from it (`outCap`). -/
structure Config where
  base  : Nat
  inCap : Nat
  deriving DecidableEq, Repr

/-- BASE of the instance that `State.reset` describes: open, so no value (R9). -/
opaque Config.platformBase : Nat

/-- IN_CAP less one of the instance that `State.reset` describes: open within 1 to 655360, so only
that bound is known (R10). -/
opaque Config.platformInCapLessOne : Fin 655360

/-- The instance that `State.reset` describes. -/
def Config.platform : Config where
  base  := Config.platformBase
  inCap := Config.platformInCapLessOne.val + 1

/-- The byte at an index of a window that nothing has written since the buffer last became
unspecified (R230, R232, R60; U3, U4, U5, U7). The first number is the buffer's epoch, which
a reset advances, so that each reset gives fresh draws. -/
opaque Config.unwrittenByte : Window → Nat → Nat → Byte

/-- The byte a read of the OUT window returns while STATUS.BUSY = 1 (R62, U6): one draw for each
byte read, numbered by the counter `State.draws`. -/
opaque Config.busyOutByte : Nat → Byte

/-- What a host program's name holds before any read has bound it (the spec's host notation, R86,
states no value). -/
opaque Config.unboundName : Nat → Word

end Sys2Proof
end

