-- ==== Sys2Proof/Machine/Port.lean ====
section
/-! DEFINITION. The host port: register names, bus requests, the causes of a bus error, and the
host's side (its program of accesses in the notation of spec 30_encoding.md R86, and whose turn is next). -/

namespace Sys2Proof

/-- The nine registers of the map (10_state.md section 3). -/
inductive Reg where
  | id
  | ctrl
  | status
  | inLen
  | outLen
  | errPos
  | errChar
  | capIn
  | capOut
  deriving DecidableEq, Repr

/-- A host access (off, n, write, wdata): n bytes at block offset `off` (R51). A 1-byte access
carries its data in bits [7:0]. -/
structure Request where
  off   : Nat
  n     : Nat
  write : Bool
  data  : Word
  deriving DecidableEq, Repr

/-- Why the block does not decode an access (R206, U9, U10). The spec's fault names the offset only;
the cause is the model's reading of R206's list. -/
inductive BusErrorCause where
  /-- An access size other than 1 or 4. -/
  | size
  /-- An offset in a hole of the map. -/
  | hole
  /-- A register access that is not 4 bytes and 4-byte aligned. -/
  | registerShape
  /-- A 4-byte buffer access that is misaligned. -/
  | misaligned
  /-- A 4-byte buffer access that runs past the capacity. -/
  | pastCapacity
  /-- A write to the OUT window. -/
  | outWrite
  /-- An offset above 0x2FFFFF, outside the block. -/
  | outsideBlock
  deriving DecidableEq, Repr

/-- The value a host program writes: a numeral, or a name an earlier read bound (the loopback
program of 95_test_vectors.md section 3.4 writes back what it read). Names are numbers. -/
inductive HostVal where
  | num (v : Word)
  | name (x : Nat)
  deriving DecidableEq, Repr

/-- One line of a host program (R86): MemWrite, MemRead into a name, a 4-byte read of which the
name takes bits [hi:lo] (RESULT of R87), and `poll`. -/
inductive HostOp where
  | wr (off n : Nat) (v : HostVal)
  | rd (off n : Nat) (x : Nat)
  | rdField (off hi lo : Nat) (x : Nat)
  | poll (off : Nat) (mask value : Word)
  deriving DecidableEq, Repr

/-- Who moves next: the host performs its next access, the engine takes its completion step (R14),
or the reset input is asserted (R230). -/
inductive Turn where
  | host
  | engine
  | reset
  deriving DecidableEq, Repr

end Sys2Proof
end

