-- ==== Sys2Proof/Syntax.lean ====
section
/-! DEFINITION. The commands: one constructor per row of spec/opcode_table.json (30_encoding.md R82). -/

namespace Sys2Proof

/-- A command word, decoded. `ic` is the IGNORE_CASE bit of the word (R81). The bits the block
ignores (R84) are no part of a command. -/
inductive Instr where
  /-- CFG (R180): configure CTRL.OP and CTRL.IGNORE_CASE and start nothing. -/
  | cfg (op : Op) (ic : Bool)
  /-- ENCODE (R120). -/
  | encode (ic : Bool)
  /-- DECODE (R140). -/
  | decode (ic : Bool)
  /-- VALIDATE (R160). -/
  | validate (ic : Bool)
  /-- RESERVED_OP (R185). -/
  | reservedOp (ic : Bool)
  deriving DecidableEq, Repr

end Sys2Proof
end

