-- ==== Sys2Proof/Decode.lean ====
section
/-! DEFINITION. Decoding: the command word (spec 30_encoding.md R81 to R85), the bus request (20_memory.md
R50 to R55), and the encoder of command words. Both decoders are total; a request that is no access of
the block is rejected by the name of its cause. -/

namespace Sys2Proof

/-! ## The command word -/

/-- CTRL.OP as its two bits (R24). -/
def Op.bits : Op → BitVec 2
  | .encode   => 0b00
  | .decode   => 0b01
  | .validate => 0b10
  | .reserved => 0b11

/-- The operation two bits stand for (R24). -/
def Op.ofBits (b : BitVec 2) : Op :=
  if b = 0b00 then .encode
  else if b = 0b01 then .decode
  else if b = 0b10 then .validate
  else .reserved

/-- Decoding of a command word, total over all words (R82): bit 8 is START, bits [1:0] are OP,
bit 2 is IGNORE_CASE. -/
def decodeCommand (w : Word) : Instr :=
  if w.getLsbD 8 then
    match Op.ofBits (w.extractLsb' 0 2) with
    | .encode   => .encode (w.getLsbD 2)
    | .decode   => .decode (w.getLsbD 2)
    | .validate => .validate (w.getLsbD 2)
    | .reserved => .reservedOp (w.getLsbD 2)
  else .cfg (Op.ofBits (w.extractLsb' 0 2)) (w.getLsbD 2)

/-- A command word from its fields (R81), the ignored bits [31:9] and [7:3] written as 0 (R84). -/
def commandWord (start : Bool) (op : Op) (ic : Bool) : Word :=
  0#23 ++ BitVec.ofBool start ++ 0#5 ++ BitVec.ofBool ic ++ op.bits

/-- The word of a command, with the ignored bits 0 (R81, R84; the opcode map of 30_encoding.md
section 4). -/
def encodeCommand : Instr → Word
  | .cfg op ic      => commandWord false op ic
  | .encode ic      => commandWord true .encode ic
  | .decode ic      => commandWord true .decode ic
  | .validate ic    => commandWord true .validate ic
  | .reservedOp ic  => commandWord true .reserved ic

/-! ## The address map -/

/-- OUT_CAP = 8 * ceil(IN_CAP / 5) (R11). -/
def outCap (c : Config) : Nat := 8 * ((c.inCap + 4) / 5)

/-- First offset after the registers (R50). -/
def regEnd : Nat := 0x24

/-- Offset of IN[0] (R50). -/
def inBase : Nat := 0x100000

/-- Offset of OUT[0] (R50). -/
def outBase : Nat := 0x200000

/-- First offset outside the block (R8, R50). -/
def blockEnd : Nat := 0x300000

/-- Offset of CTRL (R80). -/
def ctrlOff : Nat := 0x004

/-- Offset of STATUS (R29 to R33). -/
def statusOff : Nat := 0x008

/-- Offset of IN_LEN (R34). -/
def inLenOff : Nat := 0x00C

/-- The register at a 4-byte aligned offset (10_state.md section 3). -/
def regAt (off : Nat) : Option Reg :=
  if off = 0x000 then some .id
  else if off = 0x004 then some .ctrl
  else if off = 0x008 then some .status
  else if off = 0x00C then some .inLen
  else if off = 0x010 then some .outLen
  else if off = 0x014 then some .errPos
  else if off = 0x018 then some .errChar
  else if off = 0x01C then some .capIn
  else if off = 0x020 then some .capOut
  else none

/-- The offset of a register (10_state.md section 3). -/
def regOffset : Reg → Nat
  | .id      => 0x000
  | .ctrl    => 0x004
  | .status  => 0x008
  | .inLen   => 0x00C
  | .outLen  => 0x010
  | .errPos  => 0x014
  | .errChar => 0x018
  | .capIn   => 0x01C
  | .capOut  => 0x020

/-- The block offset of a platform address, for an instance at BASE (R9, R69); none for an address
the block does not answer. The rest of the model works with offsets, as the spec does. -/
def offsetOfAddress (c : Config) (addr : Nat) : Option Nat :=
  if c.base ≤ addr ∧ addr < c.base + blockEnd then some (addr - c.base) else none

/-! ## The bus request -/

/-- What a request asks of the block, once decoded: a command (a write of CTRL, R80), a register
read or write, or an access to a window at an index. -/
inductive Access where
  | command (i : Instr)
  | readReg (r : Reg)
  | writeReg (r : Reg) (data : Word)
  | readIn (sz : Size) (i : Nat)
  | writeIn (sz : Size) (i : Nat) (data : Word)
  | readOut (sz : Size) (i : Nat)
  deriving DecidableEq, Repr

/-- The size of an n-byte access: the block accepts 1 and 4 (R51). -/
def sizeOfBytes (n : Nat) : Option Size :=
  if n = 1 then some .byte else if n = 4 then some .word else none

/-- The number of bytes of a size (R51). -/
def sizeBytes : Size → Nat
  | .byte => 1
  | .word => 4

/-- The check a window of `cap` bytes makes at index `i` (R53, R54, R55): none when the access is
legal. -/
def windowError (cap : Nat) (sz : Size) (i : Nat) : Option BusErrorCause :=
  if cap ≤ i then some .hole
  else match sz with
    | .byte => none
    | .word =>
      if i % 4 ≠ 0 then some .misaligned
      else if cap ≤ i + 3 then some .pastCapacity
      else none

/-- A register access: 4 bytes at a multiple of 4 (R52). A write of CTRL is a command (R80). -/
def decodeRegAccess (sz : Size) (r : Request) : Except BusErrorCause Access :=
  match sz, regAt r.off with
  | .word, some reg =>
    if r.write then
      match reg with
      | .ctrl => .ok (.command (decodeCommand r.data))
      | _     => .ok (.writeReg reg r.data)
    else .ok (.readReg reg)
  | _, _ => .error .registerShape

/-- An access to the IN window at index `i` (R53). -/
def decodeInAccess (c : Config) (sz : Size) (i : Nat) (r : Request) : Except BusErrorCause Access :=
  match windowError c.inCap sz i with
  | some e => .error e
  | none   => .ok (if r.write then .writeIn sz i r.data else .readIn sz i)

/-- An access to the OUT window at index `i`: a read, under the checks of the IN window (R54). -/
def decodeOutAccess (c : Config) (sz : Size) (i : Nat) (r : Request) : Except BusErrorCause Access :=
  if r.write then .error (if outCap c ≤ i then .hole else .outWrite)
  else match windowError (outCap c) sz i with
    | some e => .error e
    | none   => .ok (.readOut sz i)

/-- Decoding of a host request (R50 to R55), total: an access of the block, or the cause of the
bus error (R206). -/
def decodeRequest (c : Config) (r : Request) : Except BusErrorCause Access :=
  match sizeOfBytes r.n with
  | none => .error .size
  | some sz =>
    if r.off < regEnd then decodeRegAccess sz r
    else if r.off < inBase then .error .hole
    else if r.off < outBase then decodeInAccess c sz (r.off - inBase) r
    else if r.off < blockEnd then decodeOutAccess c sz (r.off - outBase) r
    else .error .outsideBlock

/-- The request by which a command word reaches the block: a 4-byte write to CTRL (R80). -/
def commandRequest (w : Word) : Request := ⟨ctrlOff, 4, true, w⟩

/-- The command the decoder reads from an opcode-table word `w` of `nbits` bits: the word is given
to the block as the data of a write to CTRL. A row longer than the one 32-bit format (R80) is
none. -/
def decodeTableWord (nbits w : Nat) : Option Instr :=
  if nbits ≤ 32 then
    match decodeRequest Config.platform (commandRequest (BitVec.ofNat 32 (w % 2 ^ nbits))) with
    | .ok (.command i) => some i
    | _ => none
  else none

end Sys2Proof
end

