-- ==== Sys2Proof/Machine/State.lean ====
section
/-! DEFINITION. The state of one block instance with its host (spec 10_state.md R20, 00_scope.md R14), the state
after reset (70_reset_and_hazards.md R230), the results of a command, and the reasons a step stops. -/

namespace Sys2Proof.Machine

/-- The written bytes of a buffer window, as (index, byte) pairs with strictly rising indices. A byte
that nothing has written since the buffer became unspecified is not listed (R232). -/
abbrev Memory := List Host.Cell

/-- The state. `op` to `outBuf` are the record of R20; ID, CAP_IN and CAP_OUT are constants that reads
compute. `cfg` holds the instance's parameters (R9, R10): no step changes it. `inEpoch`, `outEpoch`
and `draws` number the free values; `program`, `names` and `schedule` are the host agent
and who moves next (R14, R65). -/
structure State where
  /-- CTRL.OP (R24). -/
  op : Op
  /-- CTRL.IGNORE_CASE (R25). -/
  ignoreCase : Bool
  /-- STATUS.BUSY (R29). -/
  busy : Bool
  /-- STATUS.DONE (R30). -/
  done : Bool
  /-- STATUS.VERDICT (R31). -/
  verdict : Bool
  /-- STATUS.RESULT (R32). -/
  result : BitVec 4
  /-- IN_LEN (R34). -/
  inLen : Word
  /-- OUT_LEN (R35). -/
  outLen : Word
  /-- ERR_POS (R36). -/
  errPos : Word
  /-- ERR_CHAR (R37). -/
  errChar : Word
  /-- IN[0..IN_CAP), keyed by index (R50). -/
  inBuf : Memory
  /-- OUT[0..OUT_CAP), keyed by index (R50). -/
  outBuf : Memory
  /-- The instance's parameters (R9, R10). -/
  cfg : Config
  /-- The epoch of IN's unwritten bytes: a reset advances it (R230). -/
  inEpoch : Nat
  /-- The epoch of OUT's unwritten bytes: a reset (R230, R239) or an INVALID_CHARACTER commit (R187)
  advances it. -/
  outEpoch : Nat
  /-- How many bytes have been drawn by reads of OUT while busy (R62). -/
  draws : Nat
  /-- The host's accesses still to come, in issue order (R65). -/
  program : List HostOp
  /-- What the host's reads have bound to names (R86), by rising name. -/
  names : List (Nat × Word)
  /-- Who moves next; when the list is empty, the engine if a command is pending, else the host
  (R188: the engine is never put off for ever). -/
  schedule : List Turn
  deriving DecidableEq, Repr

/-- The block right after power-on (R230), with no host program and nothing scheduled. The buffers list
no byte: each is a draw. -/
def State.reset : State where
  op := .encode
  ignoreCase := true
  busy := false
  done := false
  verdict := false
  result := 0
  inLen := 0
  outLen := 0
  errPos := 0
  errChar := 0
  inBuf := []
  outBuf := []
  cfg := Config.platform
  inEpoch := 0
  outEpoch := 0
  draws := 0
  program := []
  names := []
  schedule := []

/-- The error of a command (60_exceptions.md R200). INVALID_CHARACTER carries the index and the byte as
stored (R143). -/
inductive CommandError where
  | emptyInput
  | invalidFormat
  | invalidCharacter (pos : Nat) (ch : Byte)
  | badCommand
  | capacity
  deriving DecidableEq, Repr

/-- What a command computes at its completion (44_command.md R184): output bytes, a verdict, or an
error. -/
inductive CommandResult where
  | ok (bytes : List Byte)
  | verdict (v : Bool)
  | err (e : CommandError)
  deriving DecidableEq, Repr

/-- Why the machine stops with a fault. -/
inductive Fault where
  /-- Raised by a host access the block does not decode (20_memory.md R55, R56). The spec's own fault,
  `raise BusError(off)`: no state follows it, so it is safe. -/
  | busError (off : Nat) (cause : BusErrorCause)
  deriving DecidableEq, Repr

/-- Why the machine refuses an instruction. -/
inductive Refusal where
  /-- Raised by an arm of `exec` whose instruction has no meaning yet; safe, since the run stops. No
  arm raises it: every command is modelled. -/
  | notModelled (mnemonic : String)
  deriving DecidableEq, Repr

end Sys2Proof.Machine
end

