-- ==== Sys2Proof/Machine/Flags.lean ====
section
/-! DEFINITION. The flags: the STATUS and CTRL words (spec 10_state.md R24 to R33), the result codes
(60_exceptions.md R200), and what each event writes into the flags and result registers (10_state.md
section 4). -/

namespace Sys2Proof.Machine

/-- The code STATUS.RESULT takes for an error (R200). -/
def errorCode : CommandError → BitVec 4
  | .emptyInput           => 1
  | .invalidFormat        => 2
  | .invalidCharacter _ _ => 3
  | .badCommand           => 4
  | .capacity             => 5

/-- The STATUS word: RESULT in [7:4], VERDICT in [2], DONE in [1], BUSY in [0], the rest 0
(R29 to R33). -/
def statusWord (s : State) : Word :=
  0#24 ++ s.result ++ 0#1 ++ BitVec.ofBool s.verdict ++ BitVec.ofBool s.done ++ BitVec.ofBool s.busy

/-- The CTRL word: IGNORE_CASE in [2], OP in [1:0]; START and the reserved bits read 0
(R24 to R27). -/
def ctrlWord (s : State) : Word :=
  0#29 ++ BitVec.ofBool s.ignoreCase ++ s.op.bits

/-- The flags and result registers at the acceptance of a command (R181): BUSY is set and all the
others are cleared. -/
def flagsAtAcceptance (s : State) : State :=
  { s with busy := true, done := false, verdict := false, result := 0,
           outLen := 0, errPos := 0, errChar := 0 }

/-- The flags and result registers at a completion (R186, R187): BUSY is cleared, DONE is set, and the
other registers take the values of the commit. -/
def flagsAtCompletion (verdict : Bool) (result : BitVec 4) (outLen errPos errChar : Word)
    (s : State) : State :=
  { s with busy := false, done := true, verdict := verdict, result := result,
           outLen := outLen, errPos := errPos, errChar := errChar }

end Sys2Proof.Machine
end

