-- ==== Sys2Proof/Machine/Ops.lean ====
section
/-! DEFINITION. The named operations over registers and buffers: cells of a sparse list, bytes and words of
a window, register reads and writes, the acceptance of a command, and its commits. The block takes no
traps (spec 60_exceptions.md R208): `commitError` is how an error is reported, and acceptance (R209) is
what ends it. -/

namespace Sys2Proof.Machine

/-! ## Sparse lists with rising keys -/

/-- What a list holds at a key. -/
def cellGet {α : Type} : List (Nat × α) → Nat → Option α
  | [], _ => none
  | (k, v) :: rest, i => if k = i then some v else cellGet rest i

/-- The list with a key set, in rising order of keys. -/
def cellSet {α : Type} : List (Nat × α) → Nat → α → List (Nat × α)
  | [], i, a => [(i, a)]
  | (k, v) :: rest, i, a =>
    if i < k then (i, a) :: (k, v) :: rest
    else if i = k then (i, a) :: rest
    else (k, v) :: cellSet rest i a

/-- The canonical form: keys strictly rising, so that equal contents are equal lists. An unlisted index
holds no written byte, so no entry can equal what an unlisted one reads as. -/
abbrev Memory.wf (m : Memory) : Prop := m.Pairwise (fun a b => a.1 < b.1)

/-- Every listed index lies below the window's capacity (R50). -/
abbrev Memory.within (cap : Nat) (m : Memory) : Prop := ∀ c ∈ m, c.1 < cap

/-- What a byte nothing has written reads as: a draw, the same at every read until the buffer
becomes unspecified again (R64, R230, R232). -/
def unlistedByte (w : Window) (epoch i : Nat) : Byte := Config.unwrittenByte w epoch i

/-- Bytes stored at consecutive indices from `i` on. -/
def writeBytes : Memory → Nat → List Byte → Memory
  | m, _, [] => m
  | m, i, b :: bs => writeBytes (cellSet m i b) (i + 1) bs

/-! ## Bytes and words of the windows -/

/-- IN[i] (R53). -/
def inByte (s : State) (i : Nat) : Byte :=
  (cellGet s.inBuf i).getD (unlistedByte .input s.inEpoch i)

/-- OUT[i] (R54). -/
def outByte (s : State) (i : Nat) : Byte :=
  (cellGet s.outBuf i).getD (unlistedByte .output s.outEpoch i)

/-- The data of a read at index `i` of a window whose bytes are `f`: a word is little-endian, a byte
is in bits [7:0] (R51, R57). -/
def loadFrom (f : Nat → Byte) : Size → Nat → Word
  | .byte, i => (f i).zeroExtend 32
  | .word, i => f (i + 3) ++ f (i + 2) ++ f (i + 1) ++ f i

/-- The bytes a write of `v` stores, lowest index first (R51, R57). -/
def storedBytes : Size → Word → List Byte
  | .byte, v => [v.extractLsb' 0 8]
  | .word, v => [v.extractLsb' 0 8, v.extractLsb' 8 8, v.extractLsb' 16 8, v.extractLsb' 24 8]

/-- A write to the IN window, ignored while busy (R53). -/
def storeIn (sz : Size) (i : Nat) (v : Word) (s : State) : State :=
  if s.busy then s else { s with inBuf := writeBytes s.inBuf i (storedBytes sz v) }

/-- The data of a read of the OUT window: the stored bytes when idle (R54), a fresh draw for each byte
while busy (R62). -/
def loadOut (sz : Size) (i : Nat) (s : State) : Word :=
  if s.busy then loadFrom (fun j => Config.busyOutByte (s.draws + j)) sz 0
  else loadFrom (outByte s) sz i

/-- The draws a read of the OUT window uses up: one for each byte read while busy (R62). -/
def countDraws (sz : Size) (s : State) : State :=
  if s.busy then { s with draws := s.draws + sizeBytes sz } else s

/-! ## Registers -/

/-- The value a register reads as (10_state.md R23 to R39). -/
def readReg (s : State) : Reg → Word
  | .id      => 0x0B320007
  | .ctrl    => ctrlWord s
  | .status  => statusWord s
  | .inLen   => s.inLen
  | .outLen  => s.outLen
  | .errPos  => s.errPos
  | .errChar => s.errChar
  | .capIn   => BitVec.ofNat 32 s.cfg.inCap
  | .capOut  => BitVec.ofNat 32 (outCap s.cfg)

/-- A write of IN_LEN, ignored while busy (R34). -/
def storeInLen (v : Word) (s : State) : State :=
  if s.busy then s else { s with inLen := v }

/-- A write of a register other than CTRL: IN_LEN is stored, and the read-only registers ignore it
(R34, R40). A write of CTRL is a command and does not come here. -/
def writeReg (r : Reg) (v : Word) (s : State) : State :=
  match r with
  | .inLen => storeInLen v s
  | .id | .ctrl | .status | .outLen | .errPos | .errChar | .capIn | .capOut => s

/-- A write of CTRL that the block accepts stores OP and IGNORE_CASE (R24, R25). -/
def storeCtrl (op : Op) (ic : Bool) (s : State) : State :=
  { s with op := op, ignoreCase := ic }

/-! ## Acceptance and completion of a command -/

/-- Acceptance of a command (R181), nothing else: IN and IN_LEN are read at completion. -/
def acceptCommand (op : Op) (ic : Bool) (s : State) : State :=
  flagsAtAcceptance (storeCtrl op ic s)

/-- A CTRL write with START = 1: accepted when idle, dropped whole while busy (R28, R181, R182). -/
def startCommand (op : Op) (ic : Bool) (s : State) : State :=
  if s.busy then s else acceptCommand op ic s

/-- Commit of output bytes (R186): OUT[0..len) is written, the rest of OUT is unchanged. -/
def commitBytes (bytes : List Byte) (s : State) : State :=
  flagsAtCompletion false 0 (BitVec.ofNat 32 bytes.length) 0 0
    { s with outBuf := writeBytes s.outBuf 0 bytes }

/-- Commit of a verdict (R186): OUT is unchanged. -/
def commitVerdict (v : Bool) (s : State) : State :=
  flagsAtCompletion v 0 0 0 0 s

/-- Commit of an error (R187): OUT is unchanged, except that INVALID_CHARACTER records the index and the
byte and leaves every byte of OUT a fresh draw (R203). That branch is dead (R147). -/
def commitError (e : CommandError) (s : State) : State :=
  match e with
  | .invalidCharacter pos ch =>
    flagsAtCompletion false (errorCode e) 0 (BitVec.ofNat 32 pos) (ch.zeroExtend 32)
      { s with outBuf := [], outEpoch := s.outEpoch + 1 }
  | .emptyInput | .invalidFormat | .badCommand | .capacity =>
    flagsAtCompletion false (errorCode e) 0 0 0 s

/-- Commit of a command's result (R186, R187). -/
def commit : CommandResult → State → State
  | .ok bytes  => commitBytes bytes
  | .verdict v => commitVerdict v
  | .err e     => commitError e

/-! ## Reset -/

/-- The reset input is asserted (R230): every register takes its reset value, a pending command is
abandoned, and each buffer becomes a fresh draw (R239). The host's program, its names and the
schedule are not the block's and stay. -/
def resetBlock (s : State) : State :=
  { State.reset with
      cfg := s.cfg, inEpoch := s.inEpoch + 1, outEpoch := s.outEpoch + 1, draws := s.draws,
      program := s.program, names := s.names, schedule := s.schedule }

end Sys2Proof.Machine
end

