-- ==== Sys2Proof/Machine/Command.lean ====
section
/-! DEFINITION. The meaning of each command word at the CTRL write that carries it (spec 44_command.md R180,
R181, R185). A started command takes effect in two steps: the acceptance here, and the completion step
of the engine, `completeCommand`, which runs the codec (R183). -/

namespace Sys2Proof.Machine

/-- CFG (R180): store OP and IGNORE_CASE when idle; ignored as a whole while busy (R28). -/
def execCfg (op : Op) (ic : Bool) (s : State) : Host.Outcome State Fault Refusal :=
  .next (if s.busy then s else storeCtrl op ic s)

/-- ENCODE (R120): start it (R181); its completion commits `encodeResult`. -/
def execEncode (ic : Bool) (s : State) : Host.Outcome State Fault Refusal :=
  .next (startCommand .encode ic s)

/-- DECODE (R140): start it (R181); its completion commits `decodeResult`. -/
def execDecode (ic : Bool) (s : State) : Host.Outcome State Fault Refusal :=
  .next (startCommand .decode ic s)

/-- VALIDATE (R160): start it (R181); its completion commits `validateResult`. -/
def execValidate (ic : Bool) (s : State) : Host.Outcome State Fault Refusal :=
  .next (startCommand .validate ic s)

/-- RESERVED_OP (R185): start it (R181); its completion commits `reservedResult`. -/
def execReservedOp (ic : Bool) (s : State) : Host.Outcome State Fault Refusal :=
  .next (startCommand .reserved ic s)

end Sys2Proof.Machine
end

