-- ==== Sys2Proof/Machine/Dispatch.lean ====
section
/-! DEFINITION. The dispatch: one arm per command, each one call of its meaning. -/

namespace Sys2Proof.Machine

def exec (i : Instr) (s : State) : Host.Outcome State Fault Refusal :=
  match i with
  | .cfg op ic => Sys2Proof.Machine.execCfg op ic s
  | .encode ic => Sys2Proof.Machine.execEncode ic s
  | .decode ic => Sys2Proof.Machine.execDecode ic s
  | .validate ic => Sys2Proof.Machine.execValidate ic s
  | .reservedOp ic => Sys2Proof.Machine.execReservedOp ic s

end Sys2Proof.Machine
end

