-- ==== Sys2Proof/Machine/Operands.lean ====
section
/-! DEFINITION. Operands. A command's operands are implicit (spec 30_encoding.md R83): IN_LEN and the bytes
IN[0..n) (20_memory.md R59). A host access's data operand is a numeral or a bound name (R86). -/

namespace Sys2Proof.Machine

/-- IN_LEN as an unsigned count (R83). -/
def inputLength (s : State) : Nat := s.inLen.toNat

/-- IN_LEN > IN_CAP: the command reads no input (R59, R205). -/
def overCapacity (s : State) : Bool := decide (s.cfg.inCap < inputLength s)

/-- The input of a command, IN[0..n): bytes of ENCODE, characters of DECODE and VALIDATE (R59, R83). -/
def commandInput (s : State) : List Byte := (List.range (inputLength s)).map (inByte s)

/-- What a name of the host's program holds. -/
def nameValue (s : State) (x : Nat) : Word := (cellGet s.names x).getD (Config.unboundName x)

/-- The data a host write carries (R86). -/
def hostValue (s : State) : HostVal → Word
  | .num v  => v
  | .name x => nameValue s x

/-- A name bound by a read (R86). -/
def bindName (x : Nat) (v : Word) (s : State) : State :=
  { s with names := cellSet s.names x v }

/-- Bits [hi:lo] of a word, with zeros above (R15). -/
def wordField (hi lo : Nat) (v : Word) : Word := (v >>> lo) &&& BitVec.ofNat 32 (2 ^ (hi + 1 - lo) - 1)

end Sys2Proof.Machine
end

