-- ==== Sys2Proof/Machine/Alphabet.lean ====
section
/-! DEFINITION. The Alphabet, its inverse lookup and case folding (spec 40_alphabet.md R100 to R106). -/

namespace Sys2Proof.Machine

/-- The padding character '=' (R102). -/
def padByte : Byte := 0x3D

/-- SYM[v]: 'A' + v for v <= 25, and 0x18 + v, the digits '2' to '7', above (R100, R101). -/
def sym (v : BitVec 5) : Byte :=
  if v.toNat ≤ 25 then 0x41 + v.zeroExtend 8 else 0x18 + v.zeroExtend 8

/-- INV(c): the value of an Alphabet symbol, or none (R103). -/
def inv (c : Byte) : Option (BitVec 5) :=
  if 0x41 ≤ c.toNat ∧ c.toNat ≤ 0x5A then some ((c - 0x41).setWidth 5)
  else if 0x32 ≤ c.toNat ∧ c.toNat ≤ 0x37 then some ((c - 0x32 + 26).setWidth 5)
  else none

/-- fold(c): the 26 ASCII lower-case letters to upper case, every other byte unchanged (R104). -/
def fold (c : Byte) : Byte :=
  if 0x61 ≤ c.toNat ∧ c.toNat ≤ 0x7A then c - 0x20 else c

/-- lookup(c, ic) (R105). -/
def lookup (ic : Bool) (c : Byte) : Option (BitVec 5) :=
  inv (if ic then fold c else c)

end Sys2Proof.Machine
end

