-- ==== Sys2Proof/Machine/Validator.lean ====
section
/-! DEFINITION. The validator: the six checks of spec 43_validator.md R161 to R166, and their conjunction
(R167). A check is true when it REJECTS the text. -/

namespace Sys2Proof.Machine

/-- The whitespace bytes of check 1 (R170). -/
def isWs (c : Byte) : Bool := c ∈ [0x09#8, 0x0A#8, 0x0B#8, 0x0C#8, 0x0D#8, 0x20#8]

/-- Whether a byte is the padding character. -/
def isPad (c : Byte) : Bool := c == padByte

/-- Check 1: the text is empty, or whitespace only (R161). -/
def rejectsBlank (s : List Byte) : Bool := s.length = 0 || s.all isWs

/-- Check 2: the length is not a positive multiple of 8 (R162). -/
def rejectsLength (s : List Byte) : Bool := s.length = 0 || s.length % 8 ≠ 0

/-- Check 3: '=' at index 0 or 1 (R163). -/
def rejectsEarlyPad (s : List Byte) : Bool := s[0]? = some padByte || s[1]? = some padByte

/-- Check 4: a character that is neither '=' nor a member, after folding when `ic` (R164). -/
def rejectsCharacter (ic : Bool) (s : List Byte) : Bool :=
  s.any fun c => !isPad c && (lookup ic c).isNone

/-- Check 5: a character other than '=' after the first '=' (R165). -/
def rejectsInnerPad (s : List Byte) : Bool :=
  (s.dropWhile fun c => !isPad c).any fun c => !isPad c

/-- firstIndexOf('='), the length when there is none (R142, R166). -/
def firstPad (s : List Byte) : Nat := s.findIdx isPad

/-- lastIndexOf('=') of a text that has one (R166). -/
def lastPad (s : List Byte) : Nat := s.length - 1 - s.reverse.findIdx isPad

/-- P: last index of '=' minus first index plus 1, and 0 when the text has none (R166). -/
def padSpan (s : List Byte) : Nat :=
  if s.any isPad then lastPad s - firstPad s + 1 else 0

/-- Check 6: P is not a legal padding count (R166, R13). -/
def rejectsPadCount (s : List Byte) : Bool := !(padSpan s ∈ [0, 1, 3, 4, 6])

/-- validate(s, ic): none of the six checks rejects (R167). -/
def validateText (ic : Bool) (s : List Byte) : Bool :=
  !rejectsBlank s && !rejectsLength s && !rejectsEarlyPad s && !rejectsCharacter ic s
    && !rejectsInnerPad s && !rejectsPadCount s

end Sys2Proof.Machine
end

