-- ==== Sys2Proof/Machine/Decoder.lean ====
section
/-! DEFINITION. The decoder: validation first, then the inverse lookup and the 8-to-5 bit unpacker (spec
42_decoder.md R141 to R150). -/

namespace Sys2Proof.Machine

/-- The data region: the text before the first '=' (R142). -/
def dataRegion (s : List Byte) : List Byte := s.take (firstPad s)

/-- mask(k) on the accumulator's 12 bits (R15, R149). -/
def accMask (k : Nat) : BitVec 12 := (1 <<< k) - 1

/-- The accumulator after a symbol's 5 bits enter at the low end (R144). -/
def accPush (acc : BitVec 12) (v : BitVec 5) : BitVec 12 := (acc <<< 5) ||| v.zeroExtend 12

/-- The top 8 of the k buffered bits (R144). -/
def accTop (acc : BitVec 12) (k : Nat) : Byte := ((acc >>> (k - 8)) &&& 0xFF).setWidth 8

/-- The unpacker's loop from index `pos` on, with accumulator `acc` holding `k` bits (R144, R150). A
character without a value stops it with INVALID_CHARACTER, the byte as stored (R143); the bits left
at the end are discarded (R146). -/
def unpack (ic : Bool) : List Byte → Nat → BitVec 12 → Nat → Except CommandError (List Byte)
  | [], _, _, _ => .ok []
  | c :: cs, pos, acc, k =>
    match lookup ic c with
    | none => .error (.invalidCharacter pos c)
    | some v =>
      if 8 ≤ k + 5 then
        match unpack ic cs (pos + 1) (accPush acc v &&& accMask (k + 5 - 8)) (k + 5 - 8) with
        | .ok out  => .ok (accTop (accPush acc v) (k + 5) :: out)
        | .error e => .error e
      else unpack ic cs (pos + 1) (accPush acc v) (k + 5)

/-- decode(s, ic) (R150): INVALID_FORMAT unless the text validates (R141). -/
def decodeText (ic : Bool) (s : List Byte) : Except CommandError (List Byte) :=
  if validateText ic s then unpack ic (dataRegion s) 0 0 0 else .error .invalidFormat

end Sys2Proof.Machine
end

