-- ==== Sys2Proof/Machine/Encoder.lean ====
section
/-! DEFINITION. The encoder: the 5-to-8 bit packer, the alphabet lookup and the padding generator (spec
41_encoder.md R121 to R131). -/

namespace Sys2Proof.Machine

/-- ceil(n / 5): the number of blocks of an input of n bytes (R122). -/
def blockCount (n : Nat) : Nat := (n + 4) / 5

/-- Block k of the input: the bytes b[5k .. 5k + m_k) (R122). -/
def inputBlock (b : List Byte) (k : Nat) : List Byte := (b.drop (5 * k)).take 5

/-- DS(m) of R126, for a block of 1 to 5 bytes (0 for none). -/
def dataSymbols (m : Nat) : Nat :=
  if m = 1 then 2 else if m = 2 then 4 else if m = 3 then 5 else if m = 4 then 7
  else if m = 5 then 8 else 0

/-- Byte j of a block, 0x00 past its end (R123, R125). -/
def blockByte (blk : List Byte) (j : Nat) : Byte := blk.getD j 0

/-- The 40-bit value of a block, byte 0 in bits [39:32] (R123). -/
def blockValue (blk : List Byte) : BitVec 40 :=
  blockByte blk 0 ++ blockByte blk 1 ++ blockByte blk 2 ++ blockByte blk 3 ++ blockByte blk 4

/-- The 5-bit field of symbol position p, at bit offset 35 - 5p (R124). -/
def blockField (v : BitVec 40) (p : Nat) : BitVec 5 := v.extractLsb' (35 - 5 * p) 5

/-- Symbol position p of a block: data, or padding from DS(m) on (R124, R127). -/
def blockSymbol (blk : List Byte) (p : Nat) : Byte :=
  if p < dataSymbols blk.length then sym (blockField (blockValue blk) p) else padByte

/-- The eight symbols of a block (R124). -/
def encodeBlock (blk : List Byte) : List Byte := (List.range 8).map (blockSymbol blk)

/-- The blocks' symbols in order (R122, R129). -/
def encodeBlocks (b : List Byte) : List Byte :=
  (List.range (blockCount b.length)).flatMap fun k => encodeBlock (inputBlock b k)

/-- encode(b) (R129): EMPTY_INPUT for no bytes, so no text is ever produced for them (R121, U1). -/
def encodeText (b : List Byte) : Except CommandError (List Byte) :=
  if b.length = 0 then .error .emptyInput else .ok (encodeBlocks b)

end Sys2Proof.Machine
end

