-- ==== Sys2Proof/Machine/Sequencer.lean ====
section
/-! DEFINITION. The engine: the result of each operation (spec 44_command.md R184, 60_exceptions.md R207) and
the completion step (R183). -/

namespace Sys2Proof.Machine

/-- A codec function's return as a command result. -/
def resultOf : Except CommandError (List Byte) → CommandResult
  | .ok bytes => .ok bytes
  | .error e  => .err e

/-- The result of ENCODE: CAPACITY, else encode(IN[0..n)) (R120, R184). IGNORE_CASE is not read (R130). -/
def encodeResult (s : State) : CommandResult :=
  if overCapacity s then .err .capacity else resultOf (encodeText (commandInput s))

/-- The result of DECODE: CAPACITY, else decode(IN[0..n), ic) (R140, R184). -/
def decodeResult (s : State) : CommandResult :=
  if overCapacity s then .err .capacity else resultOf (decodeText s.ignoreCase (commandInput s))

/-- The result of VALIDATE: CAPACITY, else the verdict (R160, R184). -/
def validateResult (s : State) : CommandResult :=
  if overCapacity s then .err .capacity else .verdict (validateText s.ignoreCase (commandInput s))

/-- The result of RESERVED_OP: BAD_COMMAND, before any look at IN_LEN (R185, R207). -/
def reservedResult (_ : State) : CommandResult := .err .badCommand

/-- exec(OP, IGNORE_CASE, IN_LEN, IN) of R184. -/
def commandResult (s : State) : CommandResult :=
  match s.op with
  | .encode   => encodeResult s
  | .decode   => decodeResult s
  | .validate => validateResult s
  | .reserved => reservedResult s

/-- The completion step: compute from the current state, and commit in one step (R183). -/
def completeCommand (s : State) : State := commit (commandResult s) s

/-- The engine's turn: the completion step is enabled exactly when BUSY = 1 (R14, R183). -/
def engineTurn (s : State) : State := if s.busy then completeCommand s else s

end Sys2Proof.Machine
end

