-- ==== Sys2Proof/Machine/HostPort.lean ====
section
/-! DEFINITION. The host port: one access (spec 20_memory.md R50 to R65), one line of a host program
(30_encoding.md R86, R87), and who moves next (00_scope.md R14, 44_command.md R188). -/

namespace Sys2Proof.Machine

/-! ## One access -/

/-- An outcome that carries no read data. -/
def withoutData : Host.Outcome State Fault Refusal → Host.Outcome (State × Word) Fault Refusal
  | .next t    => .next (t, 0)
  | .fault f   => .fault f
  | .refused r => .refused r

/-- A decoded access, performed as one event (R63): the state after it, and the read data. Reads change
nothing but the count of draws (R64). -/
def performAccess (a : Access) (s : State) : Host.Outcome (State × Word) Fault Refusal :=
  match a with
  | .command i      => withoutData (exec i s)
  | .readReg r      => .next (s, readReg s r)
  | .writeReg r v   => .next (writeReg r v s, 0)
  | .readIn sz i    => .next (s, loadFrom (inByte s) sz i)
  | .writeIn sz i v => .next (storeIn sz i v s, 0)
  | .readOut sz i   => .next (countDraws sz s, loadOut sz i s)

/-- MemRead and MemWrite (R17): an access the block does not decode is a bus error (R55, R56). -/
def busAccess (r : Request) (s : State) : Host.Outcome (State × Word) Fault Refusal :=
  match decodeRequest s.cfg r with
  | .ok a        => performAccess a s
  | .error cause => .fault (.busError r.off cause)

/-! ## The host's program -/

/-- The request a line of the host's program issues (R86). -/
def hostRequest (s : State) : HostOp → Request
  | .wr off n v         => ⟨off, n, true, hostValue s v⟩
  | .rd off n _         => ⟨off, n, false, 0⟩
  | .rdField off _ _ _  => ⟨off, 4, false, 0⟩
  | .poll off _ _       => ⟨off, 4, false, 0⟩

/-- What the host does with the data: a read binds its name, and a poll that does not match is issued
again (R86). -/
def hostFinish (op : HostOp) (d : Word) (t : State) : State :=
  match op with
  | .wr _ _ _          => t
  | .rd _ _ x          => bindName x d t
  | .rdField _ hi lo x => bindName x (wordField hi lo d) t
  | .poll _ mask v     => if d &&& mask = v then t else { t with program := op :: t.program }

/-- An access's outcome taken back by the host. -/
def hostTake (op : HostOp) : Host.Outcome (State × Word) Fault Refusal → Host.Outcome State Fault Refusal
  | .next (t, d) => .next (hostFinish op d t)
  | .fault f     => .fault f
  | .refused r   => .refused r

/-- The host's turn: its next access, if it has one (R65). -/
def hostTurn (s : State) : Host.Outcome State Fault Refusal :=
  match s.program with
  | []         => .next s
  | op :: rest => hostTake op (busAccess (hostRequest s op) { s with program := rest })

/-! ## Who moves next -/

/-- One turn of an agent. -/
def takeTurn (t : Turn) (s : State) : Host.Outcome State Fault Refusal :=
  match t with
  | .host   => hostTurn s
  | .engine => .next (engineTurn s)
  | .reset  => .next (resetBlock s)

/-- Who moves when nothing is scheduled: the engine while a command is pending, so that every command
completes (R188), else the host. -/
def defaultTurn (s : State) : Turn := if s.busy then .engine else .host

/-- One step of the whole: the scheduled turn, or the default one. -/
def nextStep (s : State) : Host.Outcome State Fault Refusal :=
  match s.schedule with
  | []        => takeTurn (defaultTurn s) s
  | t :: rest => takeTurn t { s with schedule := rest }

/-- The state in which the host's very next access is the write of a command word to CTRL. -/
def placeCommand (w : Word) (s : State) : State :=
  { s with program := .wr ctrlOff 4 (.num w) :: s.program, schedule := .host :: s.schedule }

/-! ## The notation of host programs -/

/-- `wr32 OFF, VAL` (R86). -/
def wr32 (off : Nat) (v : Word) : HostOp := .wr off 4 (.num v)

/-- `wr8 OFF, VAL` (R86). -/
def wr8 (off : Nat) (v : Byte) : HostOp := .wr off 1 (.num (v.zeroExtend 32))

/-- `rd32 OFF -> name` (R86). -/
def rd32 (off x : Nat) : HostOp := .rd off 4 x

/-- `rd8 OFF -> name` (R86). -/
def rd8 (off x : Nat) : HostOp := .rd off 1 x

/-- `CFG op, ic`, `ENCODE`, `DECODE ic`, `VALIDATE ic` (R87): one write of the command's word to CTRL. -/
def hostCommand (i : Instr) : HostOp := wr32 ctrlOff (encodeCommand i)

/-- `WAIT` (R87): poll STATUS until DONE = 1. -/
def hostWait : HostOp := .poll statusOff 0x2 0x2

/-- The byte writes of LOADIN, from index i on (R87). -/
def loadBytes : Nat → List Byte → List HostOp
  | _, [] => []
  | i, b :: bs => wr8 (inBase + i) b :: loadBytes (i + 1) bs

/-- `LOADIN b0, ..., bk-1` (R87). -/
def hostLoadIn (bs : List Byte) : List HostOp :=
  loadBytes 0 bs ++ [wr32 inLenOff (BitVec.ofNat 32 bs.length)]

/-- The word writes of LOADIN32, from word j on (R87). -/
def loadWords : Nat → List Word → List HostOp
  | _, [] => []
  | j, w :: ws => wr32 (inBase + 4 * j) w :: loadWords (j + 1) ws

/-- `LOADIN32 w0, ..., wm-1 ; len=k` (R87). -/
def hostLoadIn32 (ws : List Word) (k : Word) : List HostOp :=
  loadWords 0 ws ++ [wr32 inLenOff k]

/-- `RESULT -> r` (R87): bits [7:4] of STATUS. -/
def hostResult (x : Nat) : HostOp := .rdField statusOff 7 4 x

end Sys2Proof.Machine
end

