-- ==== Sys2Proof/WellFormed.lean ====
section
/-! DEFINITION. What is well formed: an instance's parameters, a command, a command word as software
should write it, a host request, and a host program. Each check is decidable. -/

namespace Sys2Proof

/-- 1 <= IN_CAP <= 655360 (spec 00_scope.md R10). -/
abbrev Config.wf (c : Config) : Prop := 1 ≤ c.inCap ∧ c.inCap ≤ 655360

/-- Every term of `Instr` is a command: OP is one of four names and IC one bit, so the types leave
nothing to check, and all 2^32 words decode (R82). -/
abbrev Instr.wf : Instr → Bool
  | .cfg _ _      => true
  | .encode _     => true
  | .decode _     => true
  | .validate _   => true
  | .reservedOp _ => true

/-- A command word as software should write it: bits [7:3] and [31:9] zero (R84). -/
abbrev canonicalWord (w : Word) : Prop := w &&& 0xFFFFFEF8#32 = 0#32

/-- A request the port can carry: a size the block accepts (R51), an offset of the block (R8), and
for one byte, data that fits bits [7:0] (R51). -/
abbrev Request.wf (r : Request) : Prop :=
  (r.n = 1 ∨ r.n = 4) ∧ r.off < blockEnd ∧ (r.n = 1 → r.data.toNat < 256)

/-- A value names only a read made before it. -/
abbrev HostVal.boundIn (bound : List Nat) : HostVal → Bool
  | .num _  => true
  | .name x => bound.contains x

/-- A host program writes no name before a read has bound it (R86). -/
def programWf (bound : List Nat) : List HostOp → Bool
  | [] => true
  | .wr _ _ v :: rest        => HostVal.boundIn bound v && programWf bound rest
  | .rd _ _ x :: rest        => programWf (x :: bound) rest
  | .rdField _ _ _ x :: rest => programWf (x :: bound) rest
  | .poll _ _ _ :: rest      => programWf bound rest

end Sys2Proof
end

