-- ==== Sys2Proof/Safety.lean ====
section
/-! DEFINITION. What a claim calls a good state and a safe run: the invariant the rules of the spec imply
together, and runs without a bus error. -/

namespace Sys2Proof.Machine

/-- What holds of the block in every state its rules can reach. -/
structure State.Inv (s : State) : Prop where
  /-- The instance's parameters are legal (R10). -/
  cfgLegal : s.cfg.wf
  /-- IN is in canonical form within IN_CAP (R50). -/
  inCanonical : Memory.wf s.inBuf ∧ Memory.within s.cfg.inCap s.inBuf
  /-- OUT is in canonical form within OUT_CAP (R50, R11). -/
  outCanonical : Memory.wf s.outBuf ∧ Memory.within (outCap s.cfg) s.outBuf
  /-- BUSY and DONE are never both 1 (R30). -/
  notBusyAndDone : ¬(s.busy = true ∧ s.done = true)
  /-- Before DONE the result registers read 0 (R62, R234). -/
  clearUntilDone : s.done = false → s.verdict = false ∧ s.result = 0 ∧ s.outLen = 0
  /-- ERR_POS and ERR_CHAR hold 0, since no command reports INVALID_CHARACTER (R36, R37, R147). -/
  noErrorRecord : s.errPos = 0 ∧ s.errChar = 0
  /-- RESULT is a code that occurs: not 3 and not 6 to 15 (R32, R147, R200). -/
  resultLegal : s.result ∈ [0#4, 1#4, 2#4, 4#4, 5#4]
  /-- VERDICT = 1 only with RESULT = OK (R31). -/
  verdictOnlyOk : s.verdict = true → s.result = 0
  /-- OUT_LEN is 0 but after an ENCODE or DECODE with RESULT = OK (R35). -/
  outLenOnlyOk : s.outLen ≠ 0 → s.result = 0 ∧ s.verdict = false
  /-- OUT_LEN is at most OUT_CAP (R11). -/
  outLenFits : s.outLen.toNat ≤ outCap s.cfg
  /-- The host's names are in canonical form. -/
  namesCanonical : s.names.Pairwise (fun a b => a.1 < b.1)

/-! ## Runs -/

/-- `k` steps of the machine. -/
abbrev run (k : Nat) (s : State) : Host.Outcome State Fault Refusal := Sys2Proof.core.run k s

/-- The machine does not stop within `k` steps: the host issues no access the block does not decode. -/
def safeFor (k : Nat) (s : State) : Prop := ∃ t, run k s = .next t

/-! ## Which accesses the block decodes (R50 to R54) -/

/-- An n-byte access at index `i` of a window of `cap` bytes (R53). -/
def windowAccess (cap i n : Nat) : Prop :=
  (n = 1 ∧ i < cap) ∨ (n = 4 ∧ i % 4 = 0 ∧ i + 3 < cap)

/-- The accesses the block decodes: a register as a whole word (R52), the IN window (R53), and reads of
the OUT window (R54). -/
def legalAccess (c : Config) (r : Request) : Prop :=
  (r.off < 0x24 ∧ r.n = 4 ∧ r.off % 4 = 0) ∨
  (0x100000 ≤ r.off ∧ windowAccess c.inCap (r.off - 0x100000) r.n) ∨
  (0x200000 ≤ r.off ∧ r.write = false ∧ windowAccess (outCap c) (r.off - 0x200000) r.n)

/-! ## What stays unchanged -/

/-- The block's parameters, the host and the free values are untouched. -/
structure SameSurroundings (s t : State) : Prop where
  cfg : t.cfg = s.cfg
  inEpoch : t.inEpoch = s.inEpoch
  draws : t.draws = s.draws
  program : t.program = s.program
  names : t.names = s.names
  schedule : t.schedule = s.schedule

/-- Every byte of IN reads as before. -/
def SameIn (s t : State) : Prop := ∀ i, inByte t i = inByte s i

/-- Every byte of OUT reads as before. -/
def SameOut (s t : State) : Prop := ∀ i, outByte t i = outByte s i

/-- OUT[0..len) holds `bytes` and OUT[len..) reads as before (R60, R186). -/
def OutHolds (bytes : List Byte) (s t : State) : Prop :=
  (∀ i, (h : i < bytes.length) → outByte t i = bytes[i]) ∧
  (∀ i, bytes.length ≤ i → outByte t i = outByte s i)

/-- What a completion leaves alone: the operands and the surroundings (R60, R61). -/
structure CompletionFrame (s t : State) : Prop where
  op : t.op = s.op
  ignoreCase : t.ignoreCase = s.ignoreCase
  inLen : t.inLen = s.inLen
  input : SameIn s t
  surroundings : SameSurroundings s t

/-- The registers a completion writes (10_state.md section 4). -/
structure CompletedWith (t : State) (verdict : Bool) (result : BitVec 4) (outLen errPos errChar : Word) :
    Prop where
  busy : t.busy = false
  done : t.done = true
  verdict : t.verdict = verdict
  result : t.result = result
  outLen : t.outLen = outLen
  errPos : t.errPos = errPos
  errChar : t.errChar = errChar

/-! ## Numbers that byte and symbol sequences stand for (R58) -/

/-- Bytes as one big-endian number. -/
def bytesValue (bs : List Byte) : Nat := bs.foldl (fun a b => 256 * a + b.toNat) 0

/-- 5-bit symbol values as one number, most significant first. -/
def symbolsValue (vs : List (BitVec 5)) : Nat := vs.foldl (fun a v => 32 * a + v.toNat) 0

/-- The values of a text's characters, those that have one (R105). -/
def textValues (ic : Bool) (s : List Byte) : List (BitVec 5) := s.filterMap (lookup ic)

end Sys2Proof.Machine
end

