-- ==== Sys2Proof/Certificates/Slice0/Obligations.lean ====
section
/-! DEFINITION. The statements for the provers, each from the numbered rules of the spec it names. -/

open Sys2Proof Sys2Proof.Machine

/-! ## Command words -/

/-- Words written out from the opcode map of 30_encoding.md section 4, three of them with ignored bits set
(vectors C3 and C4 of 95_test_vectors.md). -/
def Obligations.OpcodeMapWordsDecode : Prop :=
  decodeCommand 0x00000100 = .encode false ∧ decodeCommand 0x00000104 = .encode true ∧
  decodeCommand 0x00000101 = .decode false ∧ decodeCommand 0x00000105 = .decode true ∧
  decodeCommand 0x00000102 = .validate false ∧ decodeCommand 0x00000106 = .validate true ∧
  decodeCommand 0x00000103 = .reservedOp false ∧ decodeCommand 0x00000107 = .reservedOp true ∧
  decodeCommand 0x00000000 = .cfg .encode false ∧ decodeCommand 0x00000005 = .cfg .decode true ∧
  decodeCommand 0x00000006 = .cfg .validate true ∧ decodeCommand 0x00000003 = .cfg .reserved false ∧
  decodeCommand 0xFFFFFEFF = .cfg .reserved true ∧ decodeCommand 0xFFFFFFFF = .reservedOp true ∧
  decodeCommand 0xFFFFFFFA = .validate false

/-- R82: every word decodes by START (bit 8), OP (bits [1:0]) and IGNORE_CASE (bit 2) alone. -/
def Obligations.WordsDecodeByStartAndOp : Prop :=
  ∀ w : Word,
    (w.getLsbD 8 = false → decodeCommand w = .cfg (Op.ofBits (w.extractLsb' 0 2)) (w.getLsbD 2)) ∧
    (w.getLsbD 8 = true →
      (w.extractLsb' 0 2 = 0b00#2 → decodeCommand w = .encode (w.getLsbD 2)) ∧
      (w.extractLsb' 0 2 = 0b01#2 → decodeCommand w = .decode (w.getLsbD 2)) ∧
      (w.extractLsb' 0 2 = 0b10#2 → decodeCommand w = .validate (w.getLsbD 2)) ∧
      (w.extractLsb' 0 2 = 0b11#2 → decodeCommand w = .reservedOp (w.getLsbD 2)))

/-- Decode and encode agree: a command's word, with any value in the ignored bits, decodes to it. -/
def Obligations.DecodeOfEncodeIsTheCommand : Prop :=
  ∀ (i : Instr) (junk : Word), i.wf = true →
    decodeCommand (encodeCommand i ||| (junk &&& 0xFFFFFEF8#32)) = i

/-- The other direction: encoding what a word decodes to gives the word with its ignored bits clear, so
no bit the block reads is dropped. -/
def Obligations.EncodeOfDecodeClearsIgnoredBits : Prop :=
  ∀ w : Word, encodeCommand (decodeCommand w) = w &&& 0x00000107#32

/-- R84: a word acts exactly like the same word with its ignored bits clear, and never causes an
error. -/
def Obligations.IgnoredWordBitsHaveNoEffect : Prop :=
  ∀ (w : Word) (s : State),
    busAccess (commandRequest w) s = busAccess (commandRequest (w &&& 0x00000107#32)) s ∧
    ∃ t, busAccess (commandRequest w) s = .next (t, 0)

/-! ## Steps -/

/-- A step whose turn is the host's, with a write of a word to CTRL next in the host's program, runs the
decoded command on the state with that access (and the turn) used up; and a placed command word is the
next to run. How turns and host lines are held is the model's form (log entries 1 and 3). -/
def Obligations.StepRunsTheDecodedCommand : Prop :=
  (∀ (s : State) (v : HostVal) (rest : List HostOp) (turns : List Turn),
    s.program = .wr 0x004 4 v :: rest → s.schedule = .host :: turns →
    step s = exec (decodeCommand (hostValue s v)) { s with program := rest, schedule := turns }) ∧
  (∀ (s : State) (v : HostVal) (rest : List HostOp),
    s.program = .wr 0x004 4 v :: rest → s.schedule = [] → s.busy = false →
    step s = exec (decodeCommand (hostValue s v)) { s with program := rest }) ∧
  (∀ (s : State) (w : Nat), w < 2 ^ 32 →
    step (s.withFetchWord 32 w) = exec (decodeCommand (BitVec.ofNat 32 w)) s)

/-- A step at the host's turn performs the access of the host's next line, whichever it is, on the state with
that line (and the turn) used up, and the host then takes its data: a write's is dropped, a read's is bound, and
a poll whose match fails is issued again (R86). It stops exactly when the access is a bus error, and a host with
no line left changes nothing. How turns and host lines are held is the model's form (log entries 1, 3, 4, 7 and
16). -/
def Obligations.StepPerformsTheHostsAccess : Prop :=
  (∀ (s s' : State) (op : HostOp) (rest : List HostOp) (turns : List Turn), s.program = op :: rest →
    (s.schedule = .host :: turns ∨ s.schedule = [] ∧ turns = [] ∧ s.busy = false) →
    s' = { s with program := rest, schedule := turns } →
    (∀ t d, busAccess (hostRequest s op) s' = .next (t, d) → step s = .next (hostFinish op d t)) ∧
    (∀ off cause, busAccess (hostRequest s op) s' = .fault (.busError off cause) →
      step s = .fault (.busError off cause)) ∧
    ((∃ t d, busAccess (hostRequest s op) s' = .next (t, d)) ∨
      ∃ cause, busAccess (hostRequest s op) s' = .fault (.busError (hostRequest s op).off cause))) ∧
  (∀ (s : State) (turns : List Turn), s.program = [] → s.schedule = .host :: turns →
    step s = .next { s with schedule := turns }) ∧
  (∀ (s t : State) (off n hi lo x : Nat) (v : HostVal) (mask value d : Word),
    hostRequest s (.wr off n v) = ⟨off, n, true, hostValue s v⟩ ∧
    hostRequest s (.rd off n x) = ⟨off, n, false, 0⟩ ∧
    hostRequest s (.rdField off hi lo x) = ⟨off, 4, false, 0⟩ ∧
    hostRequest s (.poll off mask value) = ⟨off, 4, false, 0⟩ ∧
    hostFinish (.wr off n v) d t = t ∧ hostFinish (.rd off n x) d t = bindName x d t ∧
    hostFinish (.rdField off hi lo x) d t = bindName x (wordField hi lo d) t ∧
    hostFinish (.poll off mask value) d t =
      if d &&& mask = value then t else { t with program := .poll off mask value :: t.program })

/-- R183: the completion step is enabled exactly when BUSY = 1, and is one step: commit of the result
computed from the current state. When nothing is scheduled it is the engine's turn while busy: turns and this
default are the model's form (log entries 3 and 4). -/
def Obligations.EngineCompletesExactlyWhenBusy : Prop :=
  ∀ (s : State) (turns : List Turn),
    (s.schedule = .engine :: turns → s.busy = true →
      step s = .next (commit (commandResult s) { s with schedule := turns })) ∧
    (s.schedule = .engine :: turns → s.busy = false → step s = .next { s with schedule := turns }) ∧
    (s.schedule = [] → s.busy = true → step s = .next (commit (commandResult s) s))

/-! ## Commands at their CTRL write -/

/-- R180 (CFG): a word with START = 0 stores OP and IGNORE_CASE when idle, which CTRL then reads back,
and nothing else changes; while busy nothing happens. -/
def Obligations.CfgStoresOpAndIgnoreCase : Prop :=
  ∀ (w : Word) (s : State), w.getLsbD 8 = false →
    (s.busy = false → ∃ t, exec (decodeCommand w) s = .next t ∧
      t = { s with op := Op.ofBits (w.extractLsb' 0 2), ignoreCase := w.getLsbD 2 } ∧
      readReg t .ctrl = w &&& 0x7#32) ∧
    (s.busy = true → exec (decodeCommand w) s = .next s)

/-- R181: acceptance of a word with START = 1, in one step and nothing else, whether or not DONE = 1;
while busy it is not accepted. -/
def Obligations.StartIsAcceptedInOneStep : Prop :=
  ∀ (w : Word) (s : State), w.getLsbD 8 = true →
    (s.busy = false → exec (decodeCommand w) s = .next
      { s with op := Op.ofBits (w.extractLsb' 0 2), ignoreCase := w.getLsbD 2, busy := true,
               done := false, verdict := false, result := 0, outLen := 0, errPos := 0, errChar := 0 }) ∧
    (s.busy = true → exec (decodeCommand w) s = .next s)

/-- R28: while busy a write to CTRL is ignored as a whole, without a bus error; while idle it stores OP and
IGNORE_CASE of the written word and starts a command exactly when bit 8 is 1. -/
def Obligations.CtrlWriteIsIgnoredWhileBusy : Prop :=
  ∀ (w : Word) (s : State),
    (s.busy = true → busAccess (commandRequest w) s = .next (s, 0)) ∧
    (s.busy = false → ∃ t, busAccess (commandRequest w) s = .next (t, 0) ∧
      t.op.bits = w.extractLsb' 0 2 ∧ t.ignoreCase = w.getLsbD 2 ∧ t.busy = w.getLsbD 8)

/-- The frame of every command at its CTRL write: CFG, ENCODE, DECODE, VALIDATE and RESERVED_OP answer a
next state, store to no byte of IN or OUT, and leave IN_LEN, the parameters, the host and the free values
alone; CFG leaves the flags and result registers alone too. -/
def Obligations.CommandWriteFrame : Prop :=
  ∀ (i : Instr) (s : State), ∃ t, exec i s = .next t ∧
    SameIn s t ∧ SameOut s t ∧ t.inLen = s.inLen ∧ SameSurroundings s t ∧ t.outEpoch = s.outEpoch ∧
    (∀ o ic, i = .cfg o ic →
      t.busy = s.busy ∧ t.done = s.done ∧ t.verdict = s.verdict ∧ t.result = s.result ∧
      t.outLen = s.outLen ∧ t.errPos = s.errPos ∧ t.errChar = s.errChar)

/-! ## Commands from acceptance to completion -/

/-- ENCODE, both steps: accepted when idle, it completes with CAPACITY when IN_LEN > IN_CAP, with
EMPTY_INPUT when IN_LEN = 0, both leaving OUT alone, and otherwise with OK, OUT_LEN = 8 * ceil(n / 5) and
the text of the input in OUT[0..OUT_LEN); IGNORE_CASE plays no part. -/
def Obligations.EncodeRunsToItsText : Prop :=
  ∀ (ic : Bool) (s : State), s.busy = false →
    ∃ t u, exec (.encode ic) s = .next t ∧ t.busy = true ∧ t.op = .encode ∧ t.ignoreCase = ic ∧
      engineTurn t = u ∧ CompletionFrame t u ∧ SameIn s u ∧ u.inLen = s.inLen ∧
      (s.cfg.inCap < s.inLen.toNat → CompletedWith u false 5 0 0 0 ∧ SameOut s u) ∧
      (s.inLen.toNat = 0 → CompletedWith u false 1 0 0 0 ∧ SameOut s u) ∧
      (0 < s.inLen.toNat → s.inLen.toNat ≤ s.cfg.inCap → s.cfg.wf →
        ∃ text, encodeText ((List.range s.inLen.toNat).map (inByte s)) = .ok text ∧
          text.length = 8 * ((s.inLen.toNat + 4) / 5) ∧ u.outLen.toNat = text.length ∧
          CompletedWith u false 0 u.outLen 0 0 ∧ OutHolds text s u)

/-- DECODE, both steps: CAPACITY; INVALID_FORMAT when the text does not validate under the word's
IGNORE_CASE, IN_LEN = 0 included; otherwise OK with the decoded bytes in OUT[0..OUT_LEN). -/
def Obligations.DecodeRunsToItsBytes : Prop :=
  ∀ (ic : Bool) (s : State), s.busy = false →
    ∃ t u, exec (.decode ic) s = .next t ∧ t.busy = true ∧ t.op = .decode ∧ t.ignoreCase = ic ∧
      engineTurn t = u ∧ CompletionFrame t u ∧ SameIn s u ∧ u.inLen = s.inLen ∧
      (s.cfg.inCap < s.inLen.toNat → CompletedWith u false 5 0 0 0 ∧ SameOut s u) ∧
      (s.inLen.toNat = 0 → CompletedWith u false 2 0 0 0 ∧ SameOut s u) ∧
      (s.inLen.toNat ≤ s.cfg.inCap →
        (validateText ic ((List.range s.inLen.toNat).map (inByte s)) = false →
          CompletedWith u false 2 0 0 0 ∧ SameOut s u) ∧
        (validateText ic ((List.range s.inLen.toNat).map (inByte s)) = true → s.cfg.wf →
          ∃ out, decodeText ic ((List.range s.inLen.toNat).map (inByte s)) = .ok out ∧
            u.outLen.toNat = out.length ∧ CompletedWith u false 0 u.outLen 0 0 ∧ OutHolds out s u))

/-- VALIDATE, both steps: CAPACITY, with VERDICT = 0; otherwise OK with the verdict; OUT is never
written. -/
def Obligations.ValidateRunsToItsVerdict : Prop :=
  ∀ (ic : Bool) (s : State), s.busy = false →
    ∃ t u, exec (.validate ic) s = .next t ∧ t.busy = true ∧ t.op = .validate ∧ t.ignoreCase = ic ∧
      engineTurn t = u ∧ CompletionFrame t u ∧ SameIn s u ∧ SameOut s u ∧ u.inLen = s.inLen ∧
      (s.cfg.inCap < s.inLen.toNat → CompletedWith u false 5 0 0 0) ∧
      (s.inLen.toNat ≤ s.cfg.inCap →
        CompletedWith u (validateText ic ((List.range s.inLen.toNat).map (inByte s))) 0 0 0 0)

/-- R185 (RESERVED_OP): a word with START = 1 and OP = 0b11 is accepted when idle and completes with
BAD_COMMAND whatever IN_LEN, IN and IC hold; OUT is unchanged and CTRL.OP keeps 0b11, so STATUS reads
0x00000042. -/
def Obligations.ReservedOpReportsBadCommand : Prop :=
  ∀ (w : Word) (s : State), w &&& 0x103#32 = 0x103#32 → s.busy = false →
    decodeCommand w = .reservedOp (w.getLsbD 2) ∧
    ∃ t u, exec (.reservedOp (w.getLsbD 2)) s = .next t ∧ t.busy = true ∧ t.done = false ∧
      engineTurn t = u ∧ CompletedWith u false 4 0 0 0 ∧ SameOut s u ∧ CompletionFrame t u ∧
      u.op = .reserved ∧ u.op.bits = 0b11#2 ∧ readReg u .status = 0x00000042#32

/-- R186: what the commit of a successful result writes, and that it writes nothing else. -/
def Obligations.SuccessCommitWritesResultAndOut : Prop :=
  ∀ (s : State) (bytes : List Byte) (v : Bool),
    (bytes.length ≤ outCap s.cfg → s.cfg.wf →
      (commit (.ok bytes) s).outLen.toNat = bytes.length ∧
      CompletedWith (commit (.ok bytes) s) false 0 (commit (.ok bytes) s).outLen 0 0 ∧
      OutHolds bytes s (commit (.ok bytes) s) ∧ CompletionFrame s (commit (.ok bytes) s)) ∧
    CompletedWith (commit (.verdict v) s) v 0 0 0 0 ∧
    SameOut s (commit (.verdict v) s) ∧ CompletionFrame s (commit (.verdict v) s)

/-- R187: what the commit of an error writes. INVALID_CHARACTER leaves each byte of OUT a free value; what
the draw of a byte is called is the model's form (log entry 6), no rule. -/
def Obligations.ErrorCommitWritesCodeAndRecord : Prop :=
  ∀ s : State,
    (∀ e, (e = .emptyInput ∨ e = .invalidFormat ∨ e = .badCommand ∨ e = .capacity) →
      CompletedWith (commit (.err e) s) false
        (if e = .emptyInput then 1 else if e = .invalidFormat then 2 else if e = .badCommand then 4 else 5)
        0 0 0 ∧
      SameOut s (commit (.err e) s) ∧ CompletionFrame s (commit (.err e) s)) ∧
    (∀ (pos : Nat) (ch : Byte),
      CompletedWith (commit (.err (.invalidCharacter pos ch)) s) false 3 0 (BitVec.ofNat 32 pos)
        (ch.zeroExtend 32) ∧
      CompletionFrame s (commit (.err (.invalidCharacter pos ch)) s) ∧
      ∀ i, outByte (commit (.err (.invalidCharacter pos ch)) s) i =
        Config.unwrittenByte .output (s.outEpoch + 1) i)

/-- R201, R202, R204, R205: which code a completion reports, in the priority of R207, and that an error
records nothing beyond RESULT and leaves OUT alone. -/
def Obligations.CompletionReportsTheFirstError : Prop :=
  ∀ s : State, s.busy = true →
    ((s.op = .reserved → (engineTurn s).result = 4) ∧
     (s.op ≠ .reserved → s.cfg.inCap < s.inLen.toNat → (engineTurn s).result = 5) ∧
     (s.inLen.toNat ≤ s.cfg.inCap →
       (s.op = .encode → (engineTurn s).result = if s.inLen = 0 then 1 else 0) ∧
       (s.op = .decode → (engineTurn s).result =
         if validateText s.ignoreCase ((List.range s.inLen.toNat).map (inByte s)) then 0 else 2) ∧
       (s.op = .decode → s.inLen = 0 → (engineTurn s).result = 2) ∧
       (s.op = .validate → (engineTurn s).result = 0))) ∧
    ((engineTurn s).result ≠ 0 →
      CompletedWith (engineTurn s) false (engineTurn s).result 0 0 0 ∧ SameOut s (engineTurn s))

/-- R191: the result depends on OP, IGNORE_CASE, IN_LEN and IN[0..IN_LEN) alone (for one instance, whose
IN_CAP is a parameter). -/
def Obligations.ResultDependsOnOperandsAlone : Prop :=
  ∀ s t : State, s.cfg.inCap = t.cfg.inCap → s.op = t.op → s.ignoreCase = t.ignoreCase →
    s.inLen = t.inLen → (∀ i, i < s.inLen.toNat → i < s.cfg.inCap → inByte s i = inByte t i) →
    commandResult s = commandResult t

/-- R61: while busy, writes the block decodes (of CTRL, IN_LEN, IN or a read-only register) are ignored, so
a command's operands are those of its acceptance for as long as it runs. -/
def Obligations.OperandsAreFrozenWhileBusy : Prop :=
  (∀ (s : State) (r : Request), s.busy = true → s.cfg.wf → r.write = true → legalAccess s.cfg r →
    busAccess r s = .next (s, 0)) ∧
  (∀ s t : State, s.busy = true → step s = .next t → t.busy = true →
    t.op = s.op ∧ t.ignoreCase = s.ignoreCase ∧ t.inLen = s.inLen ∧ SameIn s t ∧ t.cfg = s.cfg ∧
    commandResult t = commandResult s)

/-! ## Registers -/

/-- R33, with the places of BUSY, DONE, VERDICT and RESULT (R29 to R32): STATUS bit [3] and bits [31:8] read
0, a write to STATUS is ignored, and its reset value is 0. -/
def Obligations.StatusReadsItsFieldsAndZeros : Prop :=
  (∀ s : State,
    (readReg s .status).getLsbD 0 = s.busy ∧ (readReg s .status).getLsbD 1 = s.done ∧
    (readReg s .status).getLsbD 2 = s.verdict ∧ (readReg s .status).extractLsb' 4 4 = s.result ∧
    (readReg s .status).getLsbD 3 = false ∧ (∀ i, 8 ≤ i → (readReg s .status).getLsbD i = false) ∧
    ∀ v, busAccess ⟨0x008, 4, true, v⟩ s = .next (s, 0)) ∧
  readReg State.reset .status = 0

/-- R27, with the places of OP and IGNORE_CASE (R24, R25): the other bits of CTRL read 0, START among them
(R26), and a written word acts as the same word with its reserved bits clear. -/
def Obligations.CtrlReadsItsFieldsAndZeros : Prop :=
  ∀ s : State,
    (readReg s .ctrl).extractLsb' 0 2 = s.op.bits ∧ (readReg s .ctrl).getLsbD 2 = s.ignoreCase ∧
    (∀ i, 3 ≤ i → (readReg s .ctrl).getLsbD i = false) ∧
    ∀ w, busAccess (commandRequest w) s = busAccess (commandRequest (w &&& 0x00000107#32)) s

/-- R40: a write to a read-only register is ignored, with no bus error; an access where there is no register
is one. -/
def Obligations.ReadOnlyRegistersIgnoreWrites : Prop :=
  ∀ (s : State) (v : Word) (off : Nat),
    ((off = 0x000 ∨ off = 0x008 ∨ off = 0x010 ∨ off = 0x014 ∨ off = 0x018 ∨ off = 0x01C ∨ off = 0x020) →
      busAccess ⟨off, 4, true, v⟩ s = .next (s, 0)) ∧
    (∀ n w, 0x24 ≤ off → off < 0x100000 →
      ∃ cause, busAccess ⟨off, n, w, v⟩ s = .fault (.busError off cause))

/-- Every register reads at its offset, with the constants of R23, R38 and R39, and the read changes
nothing. -/
def Obligations.RegistersReadAtTheirOffsets : Prop :=
  ∀ (s : State) (d : Word),
    busAccess ⟨0x000, 4, false, d⟩ s = .next (s, 0x0B320007) ∧
    busAccess ⟨0x004, 4, false, d⟩ s = .next (s, ctrlWord s) ∧
    busAccess ⟨0x008, 4, false, d⟩ s = .next (s, statusWord s) ∧
    busAccess ⟨0x00C, 4, false, d⟩ s = .next (s, s.inLen) ∧
    busAccess ⟨0x010, 4, false, d⟩ s = .next (s, s.outLen) ∧
    busAccess ⟨0x014, 4, false, d⟩ s = .next (s, s.errPos) ∧
    busAccess ⟨0x018, 4, false, d⟩ s = .next (s, s.errChar) ∧
    busAccess ⟨0x01C, 4, false, d⟩ s = .next (s, BitVec.ofNat 32 s.cfg.inCap) ∧
    busAccess ⟨0x020, 4, false, d⟩ s = .next (s, BitVec.ofNat 32 (8 * ((s.cfg.inCap + 4) / 5)))

/-- R34: IN_LEN stores every 32-bit value and reads it back, a value above IN_CAP makes the next command
complete with CAPACITY, a write while busy is ignored, and neither a command nor the engine writes it;
reset sets it to 0. -/
def Obligations.InLenHoldsEveryValue : Prop :=
  ∀ (s : State) (v : Word),
    (s.busy = false → ∃ t, busAccess ⟨0x00C, 4, true, v⟩ s = .next (t, 0) ∧ t = { s with inLen := v } ∧
      busAccess ⟨0x00C, 4, false, 0⟩ t = .next (t, v) ∧
      ∀ o ic, o ≠ .reserved → s.cfg.inCap < v.toNat →
        (engineTurn (acceptCommand o ic t)).result = 5) ∧
    (s.busy = true → busAccess ⟨0x00C, 4, true, v⟩ s = .next (s, 0)) ∧
    (∀ i t, exec i s = .next t → t.inLen = s.inLen) ∧ (engineTurn s).inLen = s.inLen ∧
    (resetBlock s).inLen = 0

/-! ## Host accesses -/

/-- R55, R206: an access is a bus error exactly when R51 to R54 reject it, and the fault names its
offset; every other access answers. That an access outside the block (offset 0x300000 and above) is one, is U10
of 93_implementation_defined.md and the model's reading of it (log entry 14), since R50 leaves what responds there
to the platform. The fault's cause is the model's (log entry 9). -/
def Obligations.RejectedAccessesAreBusErrors : Prop :=
  ∀ (r : Request) (s : State), s.cfg.wf →
    (¬ legalAccess s.cfg r ↔ ∃ cause, busAccess r s = .fault (.busError r.off cause)) ∧
    (legalAccess s.cfg r ↔ ∃ t d, busAccess r s = .next (t, d))

/-- R56 in a run: a host turn (the model's form, log entry 3) whose access the block does not decode stops with
the bus error. -/
def Obligations.BusErrorStopsTheRun : Prop :=
  ∀ (s : State) (op : HostOp) (rest : List HostOp) (turns : List Turn), s.cfg.wf →
    s.program = op :: rest → s.schedule = .host :: turns → ¬ legalAccess s.cfg (hostRequest s op) →
    ∃ cause, step s = .fault (.busError (hostRequest s op).off cause)

/-- R53: accesses to the IN window. -/
def Obligations.InWindowAccesses : Prop :=
  ∀ (s : State) (i : Nat) (d : Word), s.cfg.wf →
    (i < s.cfg.inCap →
      busAccess ⟨0x100000 + i, 1, false, d⟩ s = .next (s, (inByte s i).zeroExtend 32) ∧
      (s.busy = false → ∃ t, busAccess ⟨0x100000 + i, 1, true, d⟩ s = .next (t, 0) ∧
        inByte t i = d.extractLsb' 0 8 ∧ (∀ j, j ≠ i → inByte t j = inByte s j) ∧
        t = { s with inBuf := t.inBuf })) ∧
    (i % 4 = 0 → i + 3 < s.cfg.inCap →
      busAccess ⟨0x100000 + i, 4, false, d⟩ s =
        .next (s, inByte s (i + 3) ++ inByte s (i + 2) ++ inByte s (i + 1) ++ inByte s i) ∧
      (s.busy = false → ∃ t, busAccess ⟨0x100000 + i, 4, true, d⟩ s = .next (t, 0) ∧
        (∀ j, j < 4 → inByte t (i + j) = d.extractLsb' (8 * j) 8) ∧
        (∀ j, (j < i ∨ i + 4 ≤ j) → inByte t j = inByte s j) ∧ t = { s with inBuf := t.inBuf })) ∧
    (∀ w, i < 0x100000 → (i % 4 ≠ 0 ∨ s.cfg.inCap ≤ i + 3) →
      ∃ cause, busAccess ⟨0x100000 + i, 4, w, d⟩ s = .fault (.busError (0x100000 + i) cause)) ∧
    (s.busy = true → ∀ n, windowAccess s.cfg.inCap i n →
      busAccess ⟨0x100000 + i, n, true, d⟩ s = .next (s, 0))

/-- R54, R62: accesses to the OUT window are reads; while idle they return the stored bytes, and any write is
a bus error, as is a read of another size, alignment or index. While busy each byte read is a draw (for
every value of it), and the next read draws afresh; the draws' numbering is the model's form (log entry 6). -/
def Obligations.OutWindowAccesses : Prop :=
  ∀ (s : State) (i : Nat) (d : Word), s.cfg.wf →
    (∀ n, i < 0x100000 → ∃ cause,
      busAccess ⟨0x200000 + i, n, true, d⟩ s = .fault (.busError (0x200000 + i) cause)) ∧
    (∀ n, i < 0x100000 → ¬ windowAccess (outCap s.cfg) i n → ∃ cause,
      busAccess ⟨0x200000 + i, n, false, d⟩ s = .fault (.busError (0x200000 + i) cause)) ∧
    (s.busy = false →
      (i < outCap s.cfg →
        busAccess ⟨0x200000 + i, 1, false, d⟩ s = .next (s, (outByte s i).zeroExtend 32)) ∧
      (i % 4 = 0 → i + 3 < outCap s.cfg →
        busAccess ⟨0x200000 + i, 4, false, d⟩ s =
          .next (s, outByte s (i + 3) ++ outByte s (i + 2) ++ outByte s (i + 1) ++ outByte s i))) ∧
    (s.busy = true →
      (i < outCap s.cfg →
        busAccess ⟨0x200000 + i, 1, false, d⟩ s =
          .next ({ s with draws := s.draws + 1 }, (Config.busyOutByte s.draws).zeroExtend 32)) ∧
      (i % 4 = 0 → i + 3 < outCap s.cfg →
        busAccess ⟨0x200000 + i, 4, false, d⟩ s =
          .next ({ s with draws := s.draws + 4 },
            Config.busyOutByte (s.draws + 3) ++ Config.busyOutByte (s.draws + 2) ++
              Config.busyOutByte (s.draws + 1) ++ Config.busyOutByte s.draws)))

/-- R57: a 4-byte access to a window is little-endian, a 1-byte access sees the lane of the aligned word that
covers it, and a register has no byte lanes. -/
def Obligations.ByteLanesAreLittleEndian : Prop :=
  ∀ (s : State) (i j : Nat), s.cfg.wf → s.busy = false → i % 4 = 0 → j < 4 →
    (i + 3 < s.cfg.inCap → ∃ w b,
      busAccess ⟨0x100000 + i, 4, false, 0⟩ s = .next (s, w) ∧
      busAccess ⟨0x100000 + i + j, 1, false, 0⟩ s = .next (s, b) ∧
      w.extractLsb' (8 * j) 8 = inByte s (i + j) ∧ b = (w.extractLsb' (8 * j) 8).zeroExtend 32 ∧
      ∀ v, ∃ t, busAccess ⟨0x100000 + i, 4, true, v⟩ s = .next (t, 0) ∧
        inByte t (i + j) = v.extractLsb' (8 * j) 8 ∧
        busAccess ⟨0x100000 + i, 4, false, 0⟩ t = .next (t, v)) ∧
    (i + 3 < outCap s.cfg → ∃ w b,
      busAccess ⟨0x200000 + i, 4, false, 0⟩ s = .next (s, w) ∧
      busAccess ⟨0x200000 + i + j, 1, false, 0⟩ s = .next (s, b) ∧
      w.extractLsb' (8 * j) 8 = outByte s (i + j) ∧ b = (w.extractLsb' (8 * j) 8).zeroExtend 32) ∧
    (∀ off w v, off < 0x24 → ∃ cause, busAccess ⟨off, 1, w, v⟩ s = .fault (.busError off cause))

/-- R64: a read leaves all state unchanged, so two reads agree; only an OUT read while busy, which draws,
moves the count of draws, a field of the model's (log entry 6). A write while busy changes nothing; one that is
no CTRL write with START = 1 stores its data and changes only what its offset names: OP and IGNORE_CASE, IN_LEN,
the addressed bytes of IN, or nothing. -/
def Obligations.ReadsHaveNoSideEffects : Prop :=
  (∀ (s t : State) (r : Request) (d : Word), r.write = false → busAccess r s = .next (t, d) →
    t = { s with draws := if s.busy = true ∧ 0x200000 ≤ r.off then s.draws + r.n else s.draws } ∧
    ((s.busy = false ∨ r.off < 0x200000) → t = s ∧ busAccess r t = .next (t, d))) ∧
  (∀ (s t : State) (r : Request) (d : Word), r.write = true → busAccess r s = .next (t, d) →
    (s.busy = true → t = s) ∧
    (s.busy = false →
      (r.off = 0x004 → r.data.getLsbD 8 = false →
        t = { s with op := Op.ofBits (r.data.extractLsb' 0 2), ignoreCase := r.data.getLsbD 2 }) ∧
      (r.off = 0x00C → t = { s with inLen := r.data }) ∧
      (r.off < 0x24 → r.off ≠ 0x004 → r.off ≠ 0x00C → t = s) ∧
      (0x24 ≤ r.off → 0x100000 ≤ r.off ∧ t = { s with inBuf := t.inBuf } ∧
        (∀ j, j < r.n → inByte t (r.off - 0x100000 + j) = r.data.extractLsb' (8 * j) 8) ∧
        (∀ j, (0x100000 + j < r.off ∨ r.off + r.n ≤ 0x100000 + j) → inByte t j = inByte s j))))

/-- `poll` (R86) on STATUS, the WAIT of R87: one read; it is issued again while DONE = 0, with the state
otherwise unchanged, and is done when DONE = 1. One read a turn is the model's form (log entry 16). -/
def Obligations.WaitPollsUntilDone : Prop :=
  ∀ (s : State) (rest : List HostOp) (turns : List Turn),
    s.program = .poll 0x008 0x2 0x2 :: rest → s.schedule = .host :: turns →
    (s.done = false → step s = .next { s with schedule := turns }) ∧
    (s.done = true → step s = .next { s with program := rest, schedule := turns })

/-- `rd32` and `rd8` (R86), and RESULT of R87: a read binds its name, to the whole of its data or to bits
[hi:lo] of it with zeros above, and a later write may carry it. Every other name holds what it held. How names
are kept is the model's form (log entry 7). -/
def Obligations.ReadBindsItsName : Prop :=
  ∀ (s : State) (rest : List HostOp) (turns : List Turn), s.schedule = .host :: turns →
    (∀ (t : State) (off n x : Nat) (d : Word), s.program = .rd off n x :: rest →
      busAccess ⟨off, n, false, 0⟩ { s with program := rest, schedule := turns } = .next (t, d) →
      ∃ u, step s = .next u ∧ hostValue u (.name x) = d ∧ u.program = rest ∧
        (∀ off' n', hostRequest u (.wr off' n' (.name x)) = ⟨off', n', true, d⟩) ∧
        (∀ y, y ≠ x → hostValue u (.name y) = hostValue s (.name y)) ∧ u = { t with names := u.names }) ∧
    (∀ (t : State) (off hi lo x : Nat) (d : Word), s.program = .rdField off hi lo x :: rest →
      busAccess ⟨off, 4, false, 0⟩ { s with program := rest, schedule := turns } = .next (t, d) →
      ∃ u, step s = .next u ∧ u.program = rest ∧
        (∀ j, (hostValue u (.name x)).getLsbD j = (decide (j < hi + 1 - lo) && d.getLsbD (lo + j))) ∧
        (∀ off' n', hostRequest u (.wr off' n' (.name x)) = ⟨off', n', true, hostValue u (.name x)⟩) ∧
        (∀ y, y ≠ x → hostValue u (.name y) = hostValue s (.name y)) ∧ u = { t with names := u.names }) ∧
    (∀ x : Nat, s.program = .rdField 0x008 7 4 x :: rest →
      ∃ u, step s = .next u ∧ hostValue u (.name x) = s.result.zeroExtend 32)

/-- R9: an address is an offset from BASE, and the block answers 0x300000 of them. -/
def Obligations.AddressesAreOffsetsFromBase : Prop :=
  ∀ (c : Config) (off : Nat),
    (off < 0x300000 → offsetOfAddress c (c.base + off) = some off) ∧
    (0x300000 ≤ off → offsetOfAddress c (c.base + off) = none) ∧
    (∀ addr, addr < c.base → offsetOfAddress c addr = none)

/-! ## The Alphabet -/

/-- R100, R103: the 32 symbols in order, and an inverse that gives exactly them their values: none for '0',
'1', '8', '9', '=' and the bytes from 0x80 on. -/
def Obligations.AlphabetAndItsInverse : Prop :=
  (List.finRange 32).map (fun v => (sym (BitVec.ofFin v)).toNat) =
    "ABCDEFGHIJKLMNOPQRSTUVWXYZ234567".toList.map Char.toNat ∧
  (∀ v : BitVec 5, inv (sym v) = some v) ∧
  (∀ (c : Byte) (v : BitVec 5), inv c = some v → sym v = c) ∧
  inv 0x30 = none ∧ inv 0x31 = none ∧ inv 0x38 = none ∧ inv 0x39 = none ∧ inv 0x3D = none ∧
  ∀ c : Byte, 0x80 ≤ c.toNat → inv c = none

/-- R105: with IGNORE_CASE = 1 the 26 lower-case letters have the values of their upper-case forms and 58
bytes have a value; with IGNORE_CASE = 0 only the 32 symbols do. -/
def Obligations.LookupFoldsOnlyLetters : Prop :=
  (∀ c : Byte, 0x61 ≤ c.toNat ∧ c.toNat ≤ 0x7A → lookup true c = inv (c - 0x20) ∧ lookup false c = none) ∧
  (∀ c : Byte, ¬(0x61 ≤ c.toNat ∧ c.toNat ≤ 0x7A) → lookup true c = inv c ∧ lookup false c = inv c) ∧
  ((List.range 256).filter fun n => (lookup true (BitVec.ofNat 8 n)).isSome).length = 58 ∧
  ((List.range 256).filter fun n => (lookup false (BitVec.ofNat 8 n)).isSome).length = 32

/-! ## The encoder -/

/-- R128: the output length, always a positive multiple of 8; and R121: no text for no bytes. -/
def Obligations.EncodedLength : Prop :=
  encodeText [] = .error .emptyInput ∧
  ∀ b : List Byte, b ≠ [] → ∃ text, encodeText b = .ok text ∧
    text.length = 8 * (b.length / 5) + (if 0 < b.length % 5 then 8 else 0) ∧
    text.length = 8 * ((b.length + 4) / 5) ∧ 0 < text.length ∧ text.length % 8 = 0

/-- R123, R124, R126, R127: symbol position p of block k. The block's number is written out as a sum over
its five byte positions, those past the input counting 0; DS(m) = ceil(8m / 5). -/
def Obligations.EncodedSymbolIsItsBlockField : Prop :=
  ∀ (b text : List Byte) (k p : Nat), encodeText b = .ok text → 5 * k < b.length → p < 8 →
    text[8 * k + p]? = some
      (if p < (8 * min 5 (b.length - 5 * k) + 4) / 5 then
        sym (BitVec.ofNat 5
          (((b.getD (5 * k) 0).toNat * 2 ^ 32 + (b.getD (5 * k + 1) 0).toNat * 2 ^ 24 +
            (b.getD (5 * k + 2) 0).toNat * 2 ^ 16 + (b.getD (5 * k + 3) 0).toNat * 2 ^ 8 +
            (b.getD (5 * k + 4) 0).toNat) / 2 ^ (35 - 5 * p)))
      else 0x3D#8)

/-- R131: ceil(8n / 5) data symbols and then padding, {0, 6, 4, 3, 1} characters of it for n mod 5 = 0, 1, 2,
3, 4, so a legal count; and R130: only symbols and '='. -/
def Obligations.EncodedPaddingIsLegal : Prop :=
  ∀ b text : List Byte, encodeText b = .ok text →
    ∃ (vs : List (BitVec 5)) (p : Nat), text = vs.map sym ++ List.replicate p 0x3D#8 ∧
      vs.length = (8 * b.length + 4) / 5 ∧
      p = 8 * ((b.length + 4) / 5) - (8 * b.length + 4) / 5 ∧
      p = (if b.length % 5 = 0 then 0 else if b.length % 5 = 1 then 6 else if b.length % 5 = 2 then 4
        else if b.length % 5 = 3 then 3 else 1) ∧
      ∀ ic, validateText ic text = true

/-- R11: no admitted command overflows OUT: an ENCODE of the longest input fills it exactly, a DECODE stays
within it, and OUT_CAP at the largest IN_CAP is 0x100000. -/
def Obligations.OutputNeverOverflows : Prop :=
  (∀ (c : Config) (b text : List Byte), encodeText b = .ok text → b.length ≤ c.inCap →
    text.length ≤ outCap c ∧ (b.length = c.inCap → text.length = outCap c)) ∧
  (∀ (c : Config) (ic : Bool) (s out : List Byte), decodeText ic s = .ok out → s.length ≤ c.inCap →
    out.length ≤ 5 * c.inCap / 8 ∧ out.length ≤ outCap c) ∧
  (∀ c : Config, outCap c = 8 * ((c.inCap + 4) / 5)) ∧ (∀ c : Config, c.wf → outCap c ≤ 0x100000) ∧
  (∀ c : Config, c.inCap = 655360 → outCap c = 0x100000)

/-! ## The validator -/

/-- R168: the closed form of validation. -/
def Obligations.ValidateClosedForm : Prop :=
  ∀ (ic : Bool) (s : List Byte), validateText ic s = true ↔
    0 < s.length ∧ s.length % 8 = 0 ∧
      ∃ (d : List Byte) (p : Nat), s = d ++ List.replicate p 0x3D#8 ∧
        (∀ c ∈ d, lookup ic c ≠ none) ∧ (p = 0 ∨ p = 1 ∨ p = 3 ∨ p = 4 ∨ p = 6)

/-- R169: checks 1 and 3 never change the verdict. -/
def Obligations.BlankAndEarlyPadChecksAreRedundant : Prop :=
  ∀ (ic : Bool) (s : List Byte), validateText ic s =
    (!rejectsLength s && !rejectsCharacter ic s && !rejectsInnerPad s && !rejectsPadCount s)

/-- R165, R166: check 5 by two indices, and check 6 by the least and greatest index of '='; when check 5
passes, P = L - firstIndexOf('='). -/
def Obligations.PaddingChecksByIndices : Prop :=
  ∀ s : List Byte,
    (rejectsInnerPad s = true ↔
      ∃ (f j : Nat) (c : Byte), f < j ∧ s[f]? = some 0x3D#8 ∧ s[j]? = some c ∧ c ≠ 0x3D#8) ∧
    (0x3D#8 ∉ s → rejectsPadCount s = false) ∧
    (∀ f l : Nat, s[f]? = some 0x3D#8 → s[l]? = some 0x3D#8 →
      (∀ i : Nat, s[i]? = some 0x3D#8 → f ≤ i ∧ i ≤ l) →
      (rejectsPadCount s = true ↔
        ¬(l - f + 1 = 1 ∨ l - f + 1 = 3 ∨ l - f + 1 = 4 ∨ l - f + 1 = 6)) ∧
      (rejectsInnerPad s = false → l - f + 1 = s.length - f))

/-- R172: the verdict depends on IGNORE_CASE only through lower-case letters. -/
def Obligations.VerdictDependsOnCaseThroughLetters : Prop :=
  ∀ s : List Byte,
    ((∀ c ∈ s, ¬(0x61 ≤ c.toNat ∧ c.toNat ≤ 0x7A)) → validateText false s = validateText true s) ∧
    ((∃ c ∈ s, 0x61 ≤ c.toNat ∧ c.toNat ≤ 0x7A) → validateText false s = false)

/-! ## The decoder -/

/-- R147: no DECODE reports INVALID_CHARACTER: the character check after validation never fires. -/
def Obligations.InvalidCharacterNeverOccurs : Prop :=
  (∀ (ic : Bool) (s : List Byte) (pos : Nat) (ch : Byte),
    decodeText ic s ≠ .error (.invalidCharacter pos ch)) ∧
  (∀ s : State, s.busy = true → (engineTurn s).result ≠ 3)

/-- R145: the length of the output, and the data lengths of the texts validation accepts, with their padding
counts and the bytes their last block yields. -/
def Obligations.DecodedLength : Prop :=
  ∀ (ic : Bool) (s : List Byte), validateText ic s = true →
    ∃ out d, decodeText ic s = .ok out ∧ d = s.findIdx (· == 0x3D#8) ∧ out.length = 5 * d / 8 ∧
      ((d % 8 = 0 ∧ s.length = d ∧ out.length % 5 = 0) ∨
       (d % 8 = 7 ∧ s.length = d + 1 ∧ out.length % 5 = 4) ∨
       (d % 8 = 5 ∧ s.length = d + 3 ∧ out.length % 5 = 3) ∨
       (d % 8 = 4 ∧ s.length = d + 4 ∧ out.length % 5 = 2) ∨
       (d % 8 = 2 ∧ s.length = d + 6 ∧ out.length % 5 = 1))

/-- The decoder as arithmetic (R142 to R146): the output's big-endian number is the number its data symbols
spell, most significant first, less the (5d) mod 8 residual bits, whatever they are. -/
def Obligations.DecodeRepacksItsSymbols : Prop :=
  ∀ (ic : Bool) (s : List Byte), validateText ic s = true →
    ∃ out, decodeText ic s = .ok out ∧
      out.length = 5 * s.findIdx (· == 0x3D#8) / 8 ∧
      bytesValue out = symbolsValue (textValues ic (s.take (s.findIdx (· == 0x3D#8)))) /
        2 ^ (5 * s.findIdx (· == 0x3D#8) % 8)

/-- R148: decoding an encoded non-empty byte sequence gives it back, for both values of IGNORE_CASE. -/
def Obligations.DecodeOfEncodedTextIsTheInput : Prop :=
  ∀ (b : List Byte) (ic : Bool), 1 ≤ b.length →
    ∃ text, encodeText b = .ok text ∧ decodeText ic text = .ok b

/-- The converse the spec keeps (95_test_vectors.md P2, 90_conflicts.md C2): for a valid text whose residual
bits are all zero, encoding its decoding gives the text back, folded to upper case. -/
def Obligations.EncodeOfDecodedTextIsCanonical : Prop :=
  ∀ (ic : Bool) (s : List Byte), validateText ic s = true →
    symbolsValue (textValues ic (s.take (s.findIdx (· == 0x3D#8)))) %
      2 ^ (5 * s.findIdx (· == 0x3D#8) % 8) = 0 →
    ∃ b, decodeText ic s = .ok b ∧ encodeText b = .ok (if ic then s.map fold else s)

/-! ## Reset -/

/-- R230: a reset from any state, and power-on: every register at its reset value, the block idle, nothing
pending (BUSY = 0, so the engine's step is not enabled), the parameters kept, and each byte of the buffers
a free value; how a draw is numbered and that a reset is one turn are the model's form (log entries 6 and
10). -/
def Obligations.ResetLeavesTheDocumentedState : Prop :=
  (∀ s : State,
    readReg (resetBlock s) .id = 0x0B320007 ∧ readReg (resetBlock s) .ctrl = 0x00000004 ∧
    readReg (resetBlock s) .status = 0 ∧ readReg (resetBlock s) .inLen = 0 ∧
    readReg (resetBlock s) .outLen = 0 ∧ readReg (resetBlock s) .errPos = 0 ∧
    readReg (resetBlock s) .errChar = 0 ∧
    readReg (resetBlock s) .capIn = BitVec.ofNat 32 s.cfg.inCap ∧
    readReg (resetBlock s) .capOut = BitVec.ofNat 32 (outCap s.cfg) ∧
    (resetBlock s).cfg = s.cfg ∧ engineTurn (resetBlock s) = resetBlock s ∧
    (∀ i, inByte (resetBlock s) i = Config.unwrittenByte .input (s.inEpoch + 1) i) ∧
    (∀ i, outByte (resetBlock s) i = Config.unwrittenByte .output (s.outEpoch + 1) i) ∧
    ∀ turns, s.schedule = .reset :: turns → step s = .next { resetBlock s with schedule := turns }) ∧
  readReg State.reset .id = 0x0B320007 ∧ readReg State.reset .ctrl = 0x00000004 ∧
  readReg State.reset .status = 0 ∧ readReg State.reset .inLen = 0 ∧
  readReg State.reset .outLen = 0 ∧ readReg State.reset .errPos = 0 ∧ readReg State.reset .errChar = 0 ∧
  readReg State.reset .capIn = BitVec.ofNat 32 State.reset.cfg.inCap ∧
  readReg State.reset .capOut = BitVec.ofNat 32 (8 * ((State.reset.cfg.inCap + 4) / 5))

/-! ## The whole machine -/

/-- The invariant holds at reset: this rests on log entry 2 for the parameters being legal, and on log entry
8 for the host's side being empty. -/
def Obligations.InvariantHoldsAtReset : Prop := State.Inv State.reset

/-- Every step keeps the invariant: capacities and canonical buffers (R50), BUSY and DONE never both 1
(R30), result registers clear until DONE (R62), no INVALID_CHARACTER record and no other code that R200
does not use (R147, R200), VERDICT and OUT_LEN only with OK (R31, R35), OUT_LEN within OUT_CAP (R11). -/
def Obligations.EveryStepKeepsTheInvariant : Prop :=
  ∀ s t : State, State.Inv s → step s = .next t → State.Inv t

/-- R62, R234: what the registers read as while a command runs, in every state the invariant admits: STATUS
shows BUSY = 1 and all else 0, and the result registers are 0. -/
def Obligations.ResultRegistersReadZeroWhileBusy : Prop :=
  ∀ (s : State) (d : Word), State.Inv s → s.busy = true →
    busAccess ⟨0x008, 4, false, d⟩ s = .next (s, 0x00000001) ∧
    busAccess ⟨0x010, 4, false, d⟩ s = .next (s, 0) ∧
    busAccess ⟨0x014, 4, false, d⟩ s = .next (s, 0) ∧
    busAccess ⟨0x018, 4, false, d⟩ s = .next (s, 0)

/-- The constants of an instance never change (R20, R38, R39). -/
def Obligations.EveryStepKeepsTheParameters : Prop :=
  ∀ s t : State, step s = .next t → t.cfg = s.cfg

/-- R188: an accepted command completes after finitely many steps, whatever the host does and whoever is
scheduled, unless a reset comes first (or the host program faults). Within the schedule's length plus one
step, the command's own completion step is taken; that bound is the model's form of fairness (log entry 3),
and that a bus error ends the run is R206 in the form of log entry 9. -/
def Obligations.EveryAcceptedCommandCompletes : Prop :=
  ∀ s : State, s.busy = true →
    ∃ k, k ≤ s.schedule.length ∧
      ((∃ t u, run k s = .next t ∧ t.busy = true ∧ commandResult t = commandResult s ∧
          step t = .next u ∧ u.busy = false ∧ u.done = true ∧
          ∃ turns, u = commit (commandResult s) { t with schedule := turns }) ∨
       (.reset ∈ s.schedule ∧ ∃ t, run (k + 1) s = .next t ∧ t.busy = false ∧ t.done = false) ∨
       (∃ off cause, run (k + 1) s = .fault (.busError off cause)))
end

