-- ==== Sys2Proof/Laws/State.lean ====
section
/-! SUPPORT. One lemma per field and update of the state, so that no proof unfolds a record update. -/

namespace Sys2Proof.Machine

/-! ### `storeCtrl`: a CTRL write -/

@[simp] theorem storeCtrl_op (o : Op) (ic : Bool) (s : State) :
    (storeCtrl o ic s).op = o := rfl

@[simp] theorem storeCtrl_ignoreCase (o : Op) (ic : Bool) (s : State) :
    (storeCtrl o ic s).ignoreCase = ic := rfl

@[simp] theorem storeCtrl_busy (o : Op) (ic : Bool) (s : State) :
    (storeCtrl o ic s).busy = s.busy := rfl

@[simp] theorem storeCtrl_done (o : Op) (ic : Bool) (s : State) :
    (storeCtrl o ic s).done = s.done := rfl

@[simp] theorem storeCtrl_verdict (o : Op) (ic : Bool) (s : State) :
    (storeCtrl o ic s).verdict = s.verdict := rfl

@[simp] theorem storeCtrl_result (o : Op) (ic : Bool) (s : State) :
    (storeCtrl o ic s).result = s.result := rfl

@[simp] theorem storeCtrl_inLen (o : Op) (ic : Bool) (s : State) :
    (storeCtrl o ic s).inLen = s.inLen := rfl

@[simp] theorem storeCtrl_outLen (o : Op) (ic : Bool) (s : State) :
    (storeCtrl o ic s).outLen = s.outLen := rfl

@[simp] theorem storeCtrl_errPos (o : Op) (ic : Bool) (s : State) :
    (storeCtrl o ic s).errPos = s.errPos := rfl

@[simp] theorem storeCtrl_errChar (o : Op) (ic : Bool) (s : State) :
    (storeCtrl o ic s).errChar = s.errChar := rfl

@[simp] theorem storeCtrl_inBuf (o : Op) (ic : Bool) (s : State) :
    (storeCtrl o ic s).inBuf = s.inBuf := rfl

@[simp] theorem storeCtrl_outBuf (o : Op) (ic : Bool) (s : State) :
    (storeCtrl o ic s).outBuf = s.outBuf := rfl

@[simp] theorem storeCtrl_cfg (o : Op) (ic : Bool) (s : State) :
    (storeCtrl o ic s).cfg = s.cfg := rfl

@[simp] theorem storeCtrl_inEpoch (o : Op) (ic : Bool) (s : State) :
    (storeCtrl o ic s).inEpoch = s.inEpoch := rfl

@[simp] theorem storeCtrl_outEpoch (o : Op) (ic : Bool) (s : State) :
    (storeCtrl o ic s).outEpoch = s.outEpoch := rfl

@[simp] theorem storeCtrl_draws (o : Op) (ic : Bool) (s : State) :
    (storeCtrl o ic s).draws = s.draws := rfl

@[simp] theorem storeCtrl_program (o : Op) (ic : Bool) (s : State) :
    (storeCtrl o ic s).program = s.program := rfl

@[simp] theorem storeCtrl_names (o : Op) (ic : Bool) (s : State) :
    (storeCtrl o ic s).names = s.names := rfl

@[simp] theorem storeCtrl_schedule (o : Op) (ic : Bool) (s : State) :
    (storeCtrl o ic s).schedule = s.schedule := rfl

/-! ### `flagsAtAcceptance`: the flags of an accepted command -/

@[simp] theorem flagsAtAcceptance_op (s : State) :
    (flagsAtAcceptance s).op = s.op := rfl

@[simp] theorem flagsAtAcceptance_ignoreCase (s : State) :
    (flagsAtAcceptance s).ignoreCase = s.ignoreCase := rfl

@[simp] theorem flagsAtAcceptance_busy (s : State) :
    (flagsAtAcceptance s).busy = true := rfl

@[simp] theorem flagsAtAcceptance_done (s : State) :
    (flagsAtAcceptance s).done = false := rfl

@[simp] theorem flagsAtAcceptance_verdict (s : State) :
    (flagsAtAcceptance s).verdict = false := rfl

@[simp] theorem flagsAtAcceptance_result (s : State) :
    (flagsAtAcceptance s).result = 0 := rfl

@[simp] theorem flagsAtAcceptance_inLen (s : State) :
    (flagsAtAcceptance s).inLen = s.inLen := rfl

@[simp] theorem flagsAtAcceptance_outLen (s : State) :
    (flagsAtAcceptance s).outLen = 0 := rfl

@[simp] theorem flagsAtAcceptance_errPos (s : State) :
    (flagsAtAcceptance s).errPos = 0 := rfl

@[simp] theorem flagsAtAcceptance_errChar (s : State) :
    (flagsAtAcceptance s).errChar = 0 := rfl

@[simp] theorem flagsAtAcceptance_inBuf (s : State) :
    (flagsAtAcceptance s).inBuf = s.inBuf := rfl

@[simp] theorem flagsAtAcceptance_outBuf (s : State) :
    (flagsAtAcceptance s).outBuf = s.outBuf := rfl

@[simp] theorem flagsAtAcceptance_cfg (s : State) :
    (flagsAtAcceptance s).cfg = s.cfg := rfl

@[simp] theorem flagsAtAcceptance_inEpoch (s : State) :
    (flagsAtAcceptance s).inEpoch = s.inEpoch := rfl

@[simp] theorem flagsAtAcceptance_outEpoch (s : State) :
    (flagsAtAcceptance s).outEpoch = s.outEpoch := rfl

@[simp] theorem flagsAtAcceptance_draws (s : State) :
    (flagsAtAcceptance s).draws = s.draws := rfl

@[simp] theorem flagsAtAcceptance_program (s : State) :
    (flagsAtAcceptance s).program = s.program := rfl

@[simp] theorem flagsAtAcceptance_names (s : State) :
    (flagsAtAcceptance s).names = s.names := rfl

@[simp] theorem flagsAtAcceptance_schedule (s : State) :
    (flagsAtAcceptance s).schedule = s.schedule := rfl

/-! ### `flagsAtCompletion`: the flags of a completed command -/

@[simp] theorem flagsAtCompletion_op (v : Bool) (r : BitVec 4) (n p c : Word) (s : State) :
    (flagsAtCompletion v r n p c s).op = s.op := rfl

@[simp] theorem flagsAtCompletion_ignoreCase (v : Bool) (r : BitVec 4) (n p c : Word) (s : State) :
    (flagsAtCompletion v r n p c s).ignoreCase = s.ignoreCase := rfl

@[simp] theorem flagsAtCompletion_busy (v : Bool) (r : BitVec 4) (n p c : Word) (s : State) :
    (flagsAtCompletion v r n p c s).busy = false := rfl

@[simp] theorem flagsAtCompletion_done (v : Bool) (r : BitVec 4) (n p c : Word) (s : State) :
    (flagsAtCompletion v r n p c s).done = true := rfl

@[simp] theorem flagsAtCompletion_verdict (v : Bool) (r : BitVec 4) (n p c : Word) (s : State) :
    (flagsAtCompletion v r n p c s).verdict = v := rfl

@[simp] theorem flagsAtCompletion_result (v : Bool) (r : BitVec 4) (n p c : Word) (s : State) :
    (flagsAtCompletion v r n p c s).result = r := rfl

@[simp] theorem flagsAtCompletion_inLen (v : Bool) (r : BitVec 4) (n p c : Word) (s : State) :
    (flagsAtCompletion v r n p c s).inLen = s.inLen := rfl

@[simp] theorem flagsAtCompletion_outLen (v : Bool) (r : BitVec 4) (n p c : Word) (s : State) :
    (flagsAtCompletion v r n p c s).outLen = n := rfl

@[simp] theorem flagsAtCompletion_errPos (v : Bool) (r : BitVec 4) (n p c : Word) (s : State) :
    (flagsAtCompletion v r n p c s).errPos = p := rfl

@[simp] theorem flagsAtCompletion_errChar (v : Bool) (r : BitVec 4) (n p c : Word) (s : State) :
    (flagsAtCompletion v r n p c s).errChar = c := rfl

@[simp] theorem flagsAtCompletion_inBuf (v : Bool) (r : BitVec 4) (n p c : Word) (s : State) :
    (flagsAtCompletion v r n p c s).inBuf = s.inBuf := rfl

@[simp] theorem flagsAtCompletion_outBuf (v : Bool) (r : BitVec 4) (n p c : Word) (s : State) :
    (flagsAtCompletion v r n p c s).outBuf = s.outBuf := rfl

@[simp] theorem flagsAtCompletion_cfg (v : Bool) (r : BitVec 4) (n p c : Word) (s : State) :
    (flagsAtCompletion v r n p c s).cfg = s.cfg := rfl

@[simp] theorem flagsAtCompletion_inEpoch (v : Bool) (r : BitVec 4) (n p c : Word) (s : State) :
    (flagsAtCompletion v r n p c s).inEpoch = s.inEpoch := rfl

@[simp] theorem flagsAtCompletion_outEpoch (v : Bool) (r : BitVec 4) (n p c : Word) (s : State) :
    (flagsAtCompletion v r n p c s).outEpoch = s.outEpoch := rfl

@[simp] theorem flagsAtCompletion_draws (v : Bool) (r : BitVec 4) (n p c : Word) (s : State) :
    (flagsAtCompletion v r n p c s).draws = s.draws := rfl

@[simp] theorem flagsAtCompletion_program (v : Bool) (r : BitVec 4) (n p c : Word) (s : State) :
    (flagsAtCompletion v r n p c s).program = s.program := rfl

@[simp] theorem flagsAtCompletion_names (v : Bool) (r : BitVec 4) (n p c : Word) (s : State) :
    (flagsAtCompletion v r n p c s).names = s.names := rfl

@[simp] theorem flagsAtCompletion_schedule (v : Bool) (r : BitVec 4) (n p c : Word) (s : State) :
    (flagsAtCompletion v r n p c s).schedule = s.schedule := rfl

/-! ### `bindName`: a read that binds a name -/

@[simp] theorem bindName_op (x : Nat) (v : Word) (s : State) :
    (bindName x v s).op = s.op := rfl

@[simp] theorem bindName_ignoreCase (x : Nat) (v : Word) (s : State) :
    (bindName x v s).ignoreCase = s.ignoreCase := rfl

@[simp] theorem bindName_busy (x : Nat) (v : Word) (s : State) :
    (bindName x v s).busy = s.busy := rfl

@[simp] theorem bindName_done (x : Nat) (v : Word) (s : State) :
    (bindName x v s).done = s.done := rfl

@[simp] theorem bindName_verdict (x : Nat) (v : Word) (s : State) :
    (bindName x v s).verdict = s.verdict := rfl

@[simp] theorem bindName_result (x : Nat) (v : Word) (s : State) :
    (bindName x v s).result = s.result := rfl

@[simp] theorem bindName_inLen (x : Nat) (v : Word) (s : State) :
    (bindName x v s).inLen = s.inLen := rfl

@[simp] theorem bindName_outLen (x : Nat) (v : Word) (s : State) :
    (bindName x v s).outLen = s.outLen := rfl

@[simp] theorem bindName_errPos (x : Nat) (v : Word) (s : State) :
    (bindName x v s).errPos = s.errPos := rfl

@[simp] theorem bindName_errChar (x : Nat) (v : Word) (s : State) :
    (bindName x v s).errChar = s.errChar := rfl

@[simp] theorem bindName_inBuf (x : Nat) (v : Word) (s : State) :
    (bindName x v s).inBuf = s.inBuf := rfl

@[simp] theorem bindName_outBuf (x : Nat) (v : Word) (s : State) :
    (bindName x v s).outBuf = s.outBuf := rfl

@[simp] theorem bindName_cfg (x : Nat) (v : Word) (s : State) :
    (bindName x v s).cfg = s.cfg := rfl

@[simp] theorem bindName_inEpoch (x : Nat) (v : Word) (s : State) :
    (bindName x v s).inEpoch = s.inEpoch := rfl

@[simp] theorem bindName_outEpoch (x : Nat) (v : Word) (s : State) :
    (bindName x v s).outEpoch = s.outEpoch := rfl

@[simp] theorem bindName_draws (x : Nat) (v : Word) (s : State) :
    (bindName x v s).draws = s.draws := rfl

@[simp] theorem bindName_program (x : Nat) (v : Word) (s : State) :
    (bindName x v s).program = s.program := rfl

@[simp] theorem bindName_names (x : Nat) (v : Word) (s : State) :
    (bindName x v s).names = cellSet s.names x v := rfl

@[simp] theorem bindName_schedule (x : Nat) (v : Word) (s : State) :
    (bindName x v s).schedule = s.schedule := rfl

/-! ### `resetBlock`: reset -/

@[simp] theorem resetBlock_op (s : State) :
    (resetBlock s).op = .encode := rfl

@[simp] theorem resetBlock_ignoreCase (s : State) :
    (resetBlock s).ignoreCase = true := rfl

@[simp] theorem resetBlock_busy (s : State) :
    (resetBlock s).busy = false := rfl

@[simp] theorem resetBlock_done (s : State) :
    (resetBlock s).done = false := rfl

@[simp] theorem resetBlock_verdict (s : State) :
    (resetBlock s).verdict = false := rfl

@[simp] theorem resetBlock_result (s : State) :
    (resetBlock s).result = 0 := rfl

@[simp] theorem resetBlock_inLen (s : State) :
    (resetBlock s).inLen = 0 := rfl

@[simp] theorem resetBlock_outLen (s : State) :
    (resetBlock s).outLen = 0 := rfl

@[simp] theorem resetBlock_errPos (s : State) :
    (resetBlock s).errPos = 0 := rfl

@[simp] theorem resetBlock_errChar (s : State) :
    (resetBlock s).errChar = 0 := rfl

@[simp] theorem resetBlock_inBuf (s : State) :
    (resetBlock s).inBuf = [] := rfl

@[simp] theorem resetBlock_outBuf (s : State) :
    (resetBlock s).outBuf = [] := rfl

@[simp] theorem resetBlock_cfg (s : State) :
    (resetBlock s).cfg = s.cfg := rfl

@[simp] theorem resetBlock_inEpoch (s : State) :
    (resetBlock s).inEpoch = s.inEpoch + 1 := rfl

@[simp] theorem resetBlock_outEpoch (s : State) :
    (resetBlock s).outEpoch = s.outEpoch + 1 := rfl

@[simp] theorem resetBlock_draws (s : State) :
    (resetBlock s).draws = s.draws := rfl

@[simp] theorem resetBlock_program (s : State) :
    (resetBlock s).program = s.program := rfl

@[simp] theorem resetBlock_names (s : State) :
    (resetBlock s).names = s.names := rfl

@[simp] theorem resetBlock_schedule (s : State) :
    (resetBlock s).schedule = s.schedule := rfl

/-! ### `storeIn`: a write of the IN window -/

@[simp] theorem storeIn_op (sz : Size) (i : Nat) (v : Word) (s : State) :
    (storeIn sz i v s).op = s.op := by
  unfold storeIn; split <;> rfl

@[simp] theorem storeIn_ignoreCase (sz : Size) (i : Nat) (v : Word) (s : State) :
    (storeIn sz i v s).ignoreCase = s.ignoreCase := by
  unfold storeIn; split <;> rfl

@[simp] theorem storeIn_busy (sz : Size) (i : Nat) (v : Word) (s : State) :
    (storeIn sz i v s).busy = s.busy := by
  unfold storeIn; split <;> rfl

@[simp] theorem storeIn_done (sz : Size) (i : Nat) (v : Word) (s : State) :
    (storeIn sz i v s).done = s.done := by
  unfold storeIn; split <;> rfl

@[simp] theorem storeIn_verdict (sz : Size) (i : Nat) (v : Word) (s : State) :
    (storeIn sz i v s).verdict = s.verdict := by
  unfold storeIn; split <;> rfl

@[simp] theorem storeIn_result (sz : Size) (i : Nat) (v : Word) (s : State) :
    (storeIn sz i v s).result = s.result := by
  unfold storeIn; split <;> rfl

@[simp] theorem storeIn_inLen (sz : Size) (i : Nat) (v : Word) (s : State) :
    (storeIn sz i v s).inLen = s.inLen := by
  unfold storeIn; split <;> rfl

@[simp] theorem storeIn_outLen (sz : Size) (i : Nat) (v : Word) (s : State) :
    (storeIn sz i v s).outLen = s.outLen := by
  unfold storeIn; split <;> rfl

@[simp] theorem storeIn_errPos (sz : Size) (i : Nat) (v : Word) (s : State) :
    (storeIn sz i v s).errPos = s.errPos := by
  unfold storeIn; split <;> rfl

@[simp] theorem storeIn_errChar (sz : Size) (i : Nat) (v : Word) (s : State) :
    (storeIn sz i v s).errChar = s.errChar := by
  unfold storeIn; split <;> rfl

@[simp] theorem storeIn_outBuf (sz : Size) (i : Nat) (v : Word) (s : State) :
    (storeIn sz i v s).outBuf = s.outBuf := by
  unfold storeIn; split <;> rfl

@[simp] theorem storeIn_cfg (sz : Size) (i : Nat) (v : Word) (s : State) :
    (storeIn sz i v s).cfg = s.cfg := by
  unfold storeIn; split <;> rfl

@[simp] theorem storeIn_inEpoch (sz : Size) (i : Nat) (v : Word) (s : State) :
    (storeIn sz i v s).inEpoch = s.inEpoch := by
  unfold storeIn; split <;> rfl

@[simp] theorem storeIn_outEpoch (sz : Size) (i : Nat) (v : Word) (s : State) :
    (storeIn sz i v s).outEpoch = s.outEpoch := by
  unfold storeIn; split <;> rfl

@[simp] theorem storeIn_draws (sz : Size) (i : Nat) (v : Word) (s : State) :
    (storeIn sz i v s).draws = s.draws := by
  unfold storeIn; split <;> rfl

@[simp] theorem storeIn_program (sz : Size) (i : Nat) (v : Word) (s : State) :
    (storeIn sz i v s).program = s.program := by
  unfold storeIn; split <;> rfl

@[simp] theorem storeIn_names (sz : Size) (i : Nat) (v : Word) (s : State) :
    (storeIn sz i v s).names = s.names := by
  unfold storeIn; split <;> rfl

@[simp] theorem storeIn_schedule (sz : Size) (i : Nat) (v : Word) (s : State) :
    (storeIn sz i v s).schedule = s.schedule := by
  unfold storeIn; split <;> rfl

/-! ### `storeInLen`: a write of IN_LEN -/

@[simp] theorem storeInLen_op (v : Word) (s : State) :
    (storeInLen v s).op = s.op := by
  unfold storeInLen; split <;> rfl

@[simp] theorem storeInLen_ignoreCase (v : Word) (s : State) :
    (storeInLen v s).ignoreCase = s.ignoreCase := by
  unfold storeInLen; split <;> rfl

@[simp] theorem storeInLen_busy (v : Word) (s : State) :
    (storeInLen v s).busy = s.busy := by
  unfold storeInLen; split <;> rfl

@[simp] theorem storeInLen_done (v : Word) (s : State) :
    (storeInLen v s).done = s.done := by
  unfold storeInLen; split <;> rfl

@[simp] theorem storeInLen_verdict (v : Word) (s : State) :
    (storeInLen v s).verdict = s.verdict := by
  unfold storeInLen; split <;> rfl

@[simp] theorem storeInLen_result (v : Word) (s : State) :
    (storeInLen v s).result = s.result := by
  unfold storeInLen; split <;> rfl

@[simp] theorem storeInLen_outLen (v : Word) (s : State) :
    (storeInLen v s).outLen = s.outLen := by
  unfold storeInLen; split <;> rfl

@[simp] theorem storeInLen_errPos (v : Word) (s : State) :
    (storeInLen v s).errPos = s.errPos := by
  unfold storeInLen; split <;> rfl

@[simp] theorem storeInLen_errChar (v : Word) (s : State) :
    (storeInLen v s).errChar = s.errChar := by
  unfold storeInLen; split <;> rfl

@[simp] theorem storeInLen_inBuf (v : Word) (s : State) :
    (storeInLen v s).inBuf = s.inBuf := by
  unfold storeInLen; split <;> rfl

@[simp] theorem storeInLen_outBuf (v : Word) (s : State) :
    (storeInLen v s).outBuf = s.outBuf := by
  unfold storeInLen; split <;> rfl

@[simp] theorem storeInLen_cfg (v : Word) (s : State) :
    (storeInLen v s).cfg = s.cfg := by
  unfold storeInLen; split <;> rfl

@[simp] theorem storeInLen_inEpoch (v : Word) (s : State) :
    (storeInLen v s).inEpoch = s.inEpoch := by
  unfold storeInLen; split <;> rfl

@[simp] theorem storeInLen_outEpoch (v : Word) (s : State) :
    (storeInLen v s).outEpoch = s.outEpoch := by
  unfold storeInLen; split <;> rfl

@[simp] theorem storeInLen_draws (v : Word) (s : State) :
    (storeInLen v s).draws = s.draws := by
  unfold storeInLen; split <;> rfl

@[simp] theorem storeInLen_program (v : Word) (s : State) :
    (storeInLen v s).program = s.program := by
  unfold storeInLen; split <;> rfl

@[simp] theorem storeInLen_names (v : Word) (s : State) :
    (storeInLen v s).names = s.names := by
  unfold storeInLen; split <;> rfl

@[simp] theorem storeInLen_schedule (v : Word) (s : State) :
    (storeInLen v s).schedule = s.schedule := by
  unfold storeInLen; split <;> rfl

/-! ### `countDraws`: a read of the OUT window -/

@[simp] theorem countDraws_op (sz : Size) (s : State) :
    (countDraws sz s).op = s.op := by
  unfold countDraws; split <;> rfl

@[simp] theorem countDraws_ignoreCase (sz : Size) (s : State) :
    (countDraws sz s).ignoreCase = s.ignoreCase := by
  unfold countDraws; split <;> rfl

@[simp] theorem countDraws_busy (sz : Size) (s : State) :
    (countDraws sz s).busy = s.busy := by
  unfold countDraws; split <;> rfl

@[simp] theorem countDraws_done (sz : Size) (s : State) :
    (countDraws sz s).done = s.done := by
  unfold countDraws; split <;> rfl

@[simp] theorem countDraws_verdict (sz : Size) (s : State) :
    (countDraws sz s).verdict = s.verdict := by
  unfold countDraws; split <;> rfl

@[simp] theorem countDraws_result (sz : Size) (s : State) :
    (countDraws sz s).result = s.result := by
  unfold countDraws; split <;> rfl

@[simp] theorem countDraws_inLen (sz : Size) (s : State) :
    (countDraws sz s).inLen = s.inLen := by
  unfold countDraws; split <;> rfl

@[simp] theorem countDraws_outLen (sz : Size) (s : State) :
    (countDraws sz s).outLen = s.outLen := by
  unfold countDraws; split <;> rfl

@[simp] theorem countDraws_errPos (sz : Size) (s : State) :
    (countDraws sz s).errPos = s.errPos := by
  unfold countDraws; split <;> rfl

@[simp] theorem countDraws_errChar (sz : Size) (s : State) :
    (countDraws sz s).errChar = s.errChar := by
  unfold countDraws; split <;> rfl

@[simp] theorem countDraws_inBuf (sz : Size) (s : State) :
    (countDraws sz s).inBuf = s.inBuf := by
  unfold countDraws; split <;> rfl

@[simp] theorem countDraws_outBuf (sz : Size) (s : State) :
    (countDraws sz s).outBuf = s.outBuf := by
  unfold countDraws; split <;> rfl

@[simp] theorem countDraws_cfg (sz : Size) (s : State) :
    (countDraws sz s).cfg = s.cfg := by
  unfold countDraws; split <;> rfl

@[simp] theorem countDraws_inEpoch (sz : Size) (s : State) :
    (countDraws sz s).inEpoch = s.inEpoch := by
  unfold countDraws; split <;> rfl

@[simp] theorem countDraws_outEpoch (sz : Size) (s : State) :
    (countDraws sz s).outEpoch = s.outEpoch := by
  unfold countDraws; split <;> rfl

@[simp] theorem countDraws_program (sz : Size) (s : State) :
    (countDraws sz s).program = s.program := by
  unfold countDraws; split <;> rfl

@[simp] theorem countDraws_names (sz : Size) (s : State) :
    (countDraws sz s).names = s.names := by
  unfold countDraws; split <;> rfl

@[simp] theorem countDraws_schedule (sz : Size) (s : State) :
    (countDraws sz s).schedule = s.schedule := by
  unfold countDraws; split <;> rfl

/-! ### Updates that are compositions -/

@[simp] theorem acceptCommand_eq (o : Op) (ic : Bool) (s : State) :
    acceptCommand o ic s = flagsAtAcceptance (storeCtrl o ic s) := rfl

theorem startCommand_of_idle (o : Op) (ic : Bool) (s : State) (h : s.busy = false) :
    startCommand o ic s = acceptCommand o ic s := by simp [startCommand, h]

theorem startCommand_of_busy (o : Op) (ic : Bool) (s : State) (h : s.busy = true) :
    startCommand o ic s = s := by simp [startCommand, h]

theorem storeIn_of_busy (sz : Size) (i : Nat) (v : Word) (s : State) (h : s.busy = true) :
    storeIn sz i v s = s := by simp [storeIn, h]

theorem storeIn_inBuf_of_idle (sz : Size) (i : Nat) (v : Word) (s : State) (h : s.busy = false) :
    (storeIn sz i v s).inBuf = writeBytes s.inBuf i (storedBytes sz v) := by simp [storeIn, h]

theorem storeInLen_of_busy (v : Word) (s : State) (h : s.busy = true) : storeInLen v s = s := by
  simp [storeInLen, h]

theorem storeInLen_inLen_of_idle (v : Word) (s : State) (h : s.busy = false) :
    (storeInLen v s).inLen = v := by simp [storeInLen, h]

theorem countDraws_of_idle (sz : Size) (s : State) (h : s.busy = false) : countDraws sz s = s := by
  simp [countDraws, h]

theorem countDraws_draws_of_busy (sz : Size) (s : State) (h : s.busy = true) :
    (countDraws sz s).draws = s.draws + sizeBytes sz := by simp [countDraws, h]

end Sys2Proof.Machine
end

