-- ==== Sys2Proof/Laws/Memory.lean ====
section
/-! SUPPORT. Sparse lists and buffers: read after write, writes leave other places alone, every operation
keeps the canonical form, and canonical lists with equal contents are equal. -/

namespace Sys2Proof.Machine

variable {α : Type}

/-! ## Cells -/

theorem cellGet_cellSet_same (m : List (Nat × α)) (i : Nat) (a : α) :
    cellGet (cellSet m i a) i = some a := by
  induction m with
  | nil => simp [cellSet, cellGet]
  | cons c m ih =>
    obtain ⟨k, v⟩ := c
    simp only [cellSet]
    split
    · simp [cellGet]
    · split
      · simp [cellGet]
      · rename_i h1 h2
        simp [cellGet, Ne.symm h2, ih]

theorem cellGet_cellSet_other (m : List (Nat × α)) (i j : Nat) (a : α) (h : j ≠ i) :
    cellGet (cellSet m i a) j = cellGet m j := by
  induction m with
  | nil => simp [cellSet, cellGet, h.symm]
  | cons c m ih =>
    obtain ⟨k, v⟩ := c
    simp only [cellSet]
    split
    · simp [cellGet, h.symm]
    · split
      · rename_i h1 h2
        subst h2
        simp [cellGet, h.symm]
      · simp only [cellGet, ih]

theorem cellGet_cellSet (m : List (Nat × α)) (i j : Nat) (a : α) :
    cellGet (cellSet m i a) j = if j = i then some a else cellGet m j := by
  split
  · subst j; exact cellGet_cellSet_same m i a
  · exact cellGet_cellSet_other m i j a ‹_›

theorem mem_cellSet (m : List (Nat × α)) (i : Nat) (a : α) (c : Nat × α)
    (h : c ∈ cellSet m i a) : c = (i, a) ∨ c ∈ m := by
  induction m with
  | nil => simpa [cellSet] using h
  | cons d m ih =>
    obtain ⟨k, v⟩ := d
    simp only [cellSet] at h
    split at h
    · simpa using h
    · split at h
      · rcases List.mem_cons.1 h with h | h
        · exact .inl h
        · exact .inr (List.mem_cons_of_mem _ h)
      · rcases List.mem_cons.1 h with h | h
        · exact .inr (by simp [h])
        · exact (ih h).imp id (List.mem_cons_of_mem _)

theorem cellSet_sorted (m : List (Nat × α)) (i : Nat) (a : α)
    (h : m.Pairwise (fun x y => x.1 < y.1)) :
    (cellSet m i a).Pairwise (fun x y => x.1 < y.1) := by
  induction m with
  | nil => simp [cellSet]
  | cons d m ih =>
    obtain ⟨k, v⟩ := d
    have hk := (List.pairwise_cons.1 h).1
    have hm := (List.pairwise_cons.1 h).2
    simp only [cellSet]
    split
    · rename_i hlt
      refine List.pairwise_cons.2 ⟨fun c hc => ?_, h⟩
      rcases List.mem_cons.1 hc with rfl | hc
      · exact hlt
      · exact hlt.trans (hk c hc)
    · split
      · rename_i hik
        subst hik
        exact List.pairwise_cons.2 ⟨hk, hm⟩
      · rename_i h1 h2
        refine List.pairwise_cons.2 ⟨fun c hc => ?_, ih hm⟩
        rcases mem_cellSet m i a c hc with rfl | hc
        · exact Nat.lt_of_le_of_ne (Nat.not_lt.1 h1) (Ne.symm h2)
        · exact hk c hc

theorem cellGet_none_of_below (m : List (Nat × α)) (i : Nat) (h : ∀ c ∈ m, i < c.1) :
    cellGet m i = none := by
  induction m with
  | nil => rfl
  | cons c m ih =>
    have hi : c.1 ≠ i := Nat.ne_of_gt (h c List.mem_cons_self)
    simp only [cellGet, hi, if_false]
    exact ih fun d hd => h d (List.mem_cons_of_mem _ hd)

/-- Canonical lists with equal contents are equal data. -/
theorem cells_ext (m n : List (Nat × α)) (hm : m.Pairwise (fun x y => x.1 < y.1))
    (hn : n.Pairwise (fun x y => x.1 < y.1)) (h : ∀ i, cellGet m i = cellGet n i) : m = n := by
  induction m generalizing n with
  | nil =>
    cases n with
    | nil => rfl
    | cons d n => have := h d.1; simp [cellGet] at this
  | cons c m ih =>
    cases n with
    | nil => have := h c.1; simp [cellGet] at this
    | cons d n =>
      have hc := (List.pairwise_cons.1 hm).1
      have hd := (List.pairwise_cons.1 hn).1
      have hk : c.1 = d.1 := by
        rcases Nat.lt_trichotomy c.1 d.1 with hlt | heq | hgt
        · have h1 := h c.1
          rw [cellGet_none_of_below (d :: n) c.1 (fun e he => by
            rcases List.mem_cons.1 he with rfl | he
            · exact hlt
            · exact hlt.trans (hd e he))] at h1
          simp [cellGet] at h1
        · exact heq
        · have h1 := h d.1
          rw [cellGet_none_of_below (c :: m) d.1 (fun e he => by
            rcases List.mem_cons.1 he with rfl | he
            · exact hgt
            · exact hgt.trans (hc e he))] at h1
          simp [cellGet] at h1
      have hv : c.2 = d.2 := by have h1 := h c.1; simpa [cellGet, hk] using h1
      have hcd : c = d := Prod.ext hk hv
      subst hcd
      refine congrArg _ (ih n (List.pairwise_cons.1 hm).2 (List.pairwise_cons.1 hn).2 fun i => ?_)
      by_cases hi : c.1 = i
      · subst hi
        rw [cellGet_none_of_below m _ hc, cellGet_none_of_below n _ hd]
      · have h1 := h i
        simpa [cellGet, hi] using h1

/-! ## Consecutive bytes -/

theorem cellGet_writeBytes (m : Memory) (i j : Nat) (bs : List Byte) :
    cellGet (writeBytes m i bs) j =
      if i ≤ j ∧ j < i + bs.length then bs[j - i]? else cellGet m j := by
  induction bs generalizing m i with
  | nil =>
    have h : ¬(i ≤ j ∧ j < i + ([] : List Byte).length) := by simp
    simp only [writeBytes, h, if_false]
  | cons b bs ih =>
    simp only [writeBytes, ih, cellGet_cellSet, List.length_cons]
    by_cases hji : j = i
    · subst hji
      simp
    · by_cases h1 : i + 1 ≤ j ∧ j < i + 1 + bs.length
      · have h2 : i ≤ j ∧ j < i + (bs.length + 1) := by omega
        have h3 : j - i = j - (i + 1) + 1 := by omega
        rw [if_pos h1, if_pos h2, h3, List.getElem?_cons_succ]
      · have h2 : ¬(i ≤ j ∧ j < i + (bs.length + 1)) := by omega
        rw [if_neg h1, if_neg h2, if_neg hji]

theorem writeBytes_wf (m : Memory) (i : Nat) (bs : List Byte) (h : Memory.wf m) :
    Memory.wf (writeBytes m i bs) := by
  induction bs generalizing m i with
  | nil => exact h
  | cons b bs ih => exact ih _ _ (cellSet_sorted m i b h)

theorem writeBytes_within (cap : Nat) (m : Memory) (i : Nat) (bs : List Byte)
    (h : Memory.within cap m) (hi : i + bs.length ≤ cap) :
    Memory.within cap (writeBytes m i bs) := by
  induction bs generalizing m i with
  | nil => exact h
  | cons b bs ih =>
    simp only [List.length_cons] at hi
    refine ih _ _ (fun c hc => ?_) (by omega)
    rcases mem_cellSet m i b c hc with rfl | hc
    · simp only; omega
    · exact h c hc

@[simp] theorem storedBytes_length (sz : Size) (v : Word) :
    (storedBytes sz v).length = sizeBytes sz := by cases sz <;> rfl

/-! ## The canonical form is kept -/

/-- A write of IN keeps its canonical form, and its bounds where the access is legal. -/
theorem storeIn_wf (sz : Size) (i : Nat) (v : Word) (s : State) (h : Memory.wf s.inBuf) :
    Memory.wf (storeIn sz i v s).inBuf := by
  unfold storeIn; split
  · exact h
  · exact writeBytes_wf _ _ _ h

theorem storeIn_within (cap : Nat) (sz : Size) (i : Nat) (v : Word) (s : State)
    (h : Memory.within cap s.inBuf) (hi : i + sizeBytes sz ≤ cap) :
    Memory.within cap (storeIn sz i v s).inBuf := by
  unfold storeIn; split
  · exact h
  · exact writeBytes_within _ _ _ _ h (by rw [storedBytes_length]; exact hi)

/-- A commit keeps the canonical form of OUT. -/
theorem commit_outBuf_wf (r : CommandResult) (s : State) (h : Memory.wf s.outBuf) :
    Memory.wf (commit r s).outBuf := by
  cases r with
  | ok bytes => exact writeBytes_wf _ _ _ h
  | verdict v => exact h
  | err e => cases e <;> first | exact h | exact List.Pairwise.nil

/-- A reset, and power-on, leave canonical buffers. -/
theorem resetBlock_wf (s : State) :
    Memory.wf (resetBlock s).inBuf ∧ Memory.wf (resetBlock s).outBuf :=
  ⟨List.Pairwise.nil, List.Pairwise.nil⟩

theorem reset_wf : Memory.wf State.reset.inBuf ∧ Memory.wf State.reset.outBuf :=
  ⟨List.Pairwise.nil, List.Pairwise.nil⟩

/-! ## Bytes of the windows -/

/-- IN[j] after a write of the IN window while idle. -/
theorem inByte_storeIn (sz : Size) (i j : Nat) (v : Word) (s : State) (h : s.busy = false) :
    inByte (storeIn sz i v s) j =
      if i ≤ j ∧ j < i + sizeBytes sz then ((storedBytes sz v)[j - i]?).getD 0 else inByte s j := by
  have hb := storeIn_inBuf_of_idle sz i v s h
  simp only [inByte, hb, cellGet_writeBytes, storedBytes_length, storeIn_inEpoch]
  split
  · rename_i hj
    have hlt : j - i < (storedBytes sz v).length := by rw [storedBytes_length]; omega
    simp [List.getElem?_eq_getElem hlt]
  · rfl

/-- OUT[j] after bytes are committed from index 0 on. -/
theorem outByte_commitBytes (bs : List Byte) (j : Nat) (s : State) :
    outByte (commitBytes bs s) j = if h : j < bs.length then bs[j] else outByte s j := by
  simp only [outByte, commitBytes, flagsAtCompletion_outBuf, flagsAtCompletion_outEpoch,
    cellGet_writeBytes, Nat.zero_le, true_and, Nat.zero_add, Nat.sub_zero]
  split
  · simp [*]
  · rfl

/-- A word read back from the window it was written to, lane by lane (R57). -/
theorem loadFrom_word_lanes (f : Nat → Byte) (i : Nat) :
    (loadFrom f .word i).extractLsb' 0 8 = f i ∧ (loadFrom f .word i).extractLsb' 8 8 = f (i + 1) ∧
      (loadFrom f .word i).extractLsb' 16 8 = f (i + 2) ∧
      (loadFrom f .word i).extractLsb' 24 8 = f (i + 3) := by
  simp only [loadFrom]
  refine ⟨?_, ?_, ?_, ?_⟩ <;>
    (ext j hj; simp only [BitVec.getElem_extractLsb', BitVec.getLsbD_append]; repeat' split) <;>
    first | omega | (rw [← BitVec.getLsbD_eq_getElem]; congr 1; omega)

end Sys2Proof.Machine
end

