-- ==== Sys2Proof/Laws/Access.lean ====
section
/-! SUPPORT. One access of the host and one step: everything each can do, said once. -/

namespace Sys2Proof.Machine

/-! ## The commands -/

/-- Everything a command can do at its CTRL write. -/
theorem exec_cases (i : Instr) (s : State) :
    (s.busy = true ∧ exec i s = .next s) ∨
    (s.busy = false ∧ ∃ o ic, i = .cfg o ic ∧ exec i s = .next (storeCtrl o ic s)) ∨
    (s.busy = false ∧ ∃ o ic, exec i s = .next (acceptCommand o ic s)) := by
  cases hb : s.busy with
  | true =>
    left
    cases i <;>
      simp [exec, execCfg, execEncode, execDecode, execValidate, execReservedOp, startCommand, hb]
  | false =>
    right
    cases i with
    | cfg o ic => exact .inl ⟨rfl, o, ic, rfl, by simp [exec, execCfg, hb]⟩
    | encode ic => exact .inr ⟨rfl, .encode, ic, by simp [exec, execEncode, startCommand, hb]⟩
    | decode ic => exact .inr ⟨rfl, .decode, ic, by simp [exec, execDecode, startCommand, hb]⟩
    | validate ic => exact .inr ⟨rfl, .validate, ic, by simp [exec, execValidate, startCommand, hb]⟩
    | reservedOp ic => exact .inr ⟨rfl, .reserved, ic, by simp [exec, execReservedOp, startCommand, hb]⟩

/-! ## Decoding of a request -/

theorem regAt_regOffset (r : Reg) : regAt (regOffset r) = some r := by cases r <;> rfl

theorem regOffset_lt (r : Reg) : regOffset r < regEnd := by cases r <;> decide

/-- A register's offset is its own: the map is a bijection onto the words below 0x24. -/
theorem regOffset_of_regAt (off : Nat) (r : Reg) (h : regAt off = some r) : regOffset r = off := by
  unfold regAt at h
  repeat' split at h
  all_goals first | (cases h; subst_vars; rfl) | cases h

theorem regAt_isSome (off : Nat) : (regAt off).isSome ↔ off < 0x24 ∧ off % 4 = 0 := by
  unfold regAt
  repeat' split
  all_goals simp
  all_goals omega

theorem windowError_none (cap : Nat) (sz : Size) (i : Nat) :
    windowError cap sz i = none ↔ windowAccess cap i (sizeBytes sz) := by
  cases sz <;> simp only [windowError, windowAccess, sizeBytes]
  · split
    · simp; omega
    · simp; omega
  · split
    · simp; omega
    · split
      · simp; omega
      · split <;> simp <;> omega

theorem sizeOfBytes_eq (n : Nat) (sz : Size) : sizeOfBytes n = some sz ↔ n = sizeBytes sz := by
  unfold sizeOfBytes
  cases sz <;> simp only [sizeBytes]
  · split
    · simp [*]
    · split <;> simp <;> omega
  · split
    · simp; omega
    · split <;> simp <;> omega

theorem windowAccess_bound (cap i : Nat) (sz : Size) (h : windowAccess cap i (sizeBytes sz)) :
    i + sizeBytes sz ≤ cap := by
  cases sz <;> simp only [windowAccess, sizeBytes] at h ⊢ <;> omega

theorem decodeRequest_reg_read (c : Config) (r : Reg) (d : Word) :
    decodeRequest c ⟨regOffset r, 4, false, d⟩ = .ok (.readReg r) := by cases r <;> rfl

theorem decodeRequest_reg_write (c : Config) (r : Reg) (d : Word) (h : r ≠ .ctrl) :
    decodeRequest c ⟨regOffset r, 4, true, d⟩ = .ok (.writeReg r d) := by
  cases r <;> first | rfl | exact absurd rfl h

theorem decodeRequest_command (c : Config) (w : Word) :
    decodeRequest c (commandRequest w) = .ok (.command (decodeCommand w)) := rfl

theorem decodeRequest_in (c : Config) (sz : Size) (i : Nat) (wr : Bool) (d : Word) (hc : c.wf)
    (h : windowAccess c.inCap i (sizeBytes sz)) :
    decodeRequest c ⟨inBase + i, sizeBytes sz, wr, d⟩ =
      .ok (if wr then .writeIn sz i d else .readIn sz i) := by
  have hb := windowAccess_bound _ _ _ h
  have hsz : 1 ≤ sizeBytes sz := by cases sz <;> decide
  have h1 : ¬(inBase + i < regEnd) := by simp only [inBase, regEnd]; omega
  have h2 : ¬(inBase + i < inBase) := by omega
  have h3 : inBase + i < outBase := by simp only [inBase, outBase]; omega
  simp only [decodeRequest, (sizeOfBytes_eq _ sz).2 rfl, h1, h2, h3, if_false, if_true, decodeInAccess,
    Nat.add_sub_cancel_left, (windowError_none _ _ _).2 h]

theorem outCap_le (c : Config) (hc : c.wf) : outCap c ≤ 0x100000 := by
  have := hc.2; simp only [outCap]; omega

theorem decodeRequest_out_read (c : Config) (sz : Size) (i : Nat) (d : Word) (hc : c.wf)
    (h : windowAccess (outCap c) i (sizeBytes sz)) :
    decodeRequest c ⟨outBase + i, sizeBytes sz, false, d⟩ = .ok (.readOut sz i) := by
  have hb := windowAccess_bound _ _ _ h
  have hsz : 1 ≤ sizeBytes sz := by cases sz <;> decide
  have hle := outCap_le c hc
  have h1 : ¬(outBase + i < regEnd) := by simp only [outBase, regEnd]; omega
  have h2 : ¬(outBase + i < inBase) := by simp only [outBase, inBase]; omega
  have h3 : ¬(outBase + i < outBase) := by omega
  have h4 : outBase + i < blockEnd := by simp only [outBase, blockEnd]; omega
  simp only [decodeRequest, (sizeOfBytes_eq _ sz).2 rfl, h1, h2, h3, h4, if_false, if_true,
    decodeOutAccess, Bool.false_eq_true, Nat.add_sub_cancel_left, (windowError_none _ _ _).2 h]

/-- A write of the IN window that decodes stays within IN_CAP. -/
theorem decodeRequest_writeIn (c : Config) (r : Request) (sz : Size) (i : Nat) (v : Word)
    (h : decodeRequest c r = .ok (.writeIn sz i v)) : windowAccess c.inCap i (sizeBytes sz) := by
  simp only [decodeRequest] at h
  repeat' split at h
  all_goals try cases h
  · simp only [decodeRegAccess] at h
    repeat' split at h
    all_goals cases h
  · simp only [decodeInAccess] at h
    split at h
    · cases h
    · rename_i hw
      split at h <;> cases h
      exact (windowError_none _ _ _).1 hw
  · simp only [decodeOutAccess] at h
    repeat' split at h
    all_goals cases h

/-! ## Which requests decode, and to what -/

/-- The decoder answers exactly the accesses of R51 to R54. -/
theorem legalAccess_iff (c : Config) (r : Request) (hc : c.wf) :
    legalAccess c r ↔ ∃ a, decodeRequest c r = .ok a := by
  have hcap := hc.2
  have hout := outCap_le c hc
  obtain ⟨off, n, wr, d⟩ := r
  simp only [legalAccess, decodeRequest]
  cases hs : sizeOfBytes n with
  | none =>
    have hn : n ≠ 1 ∧ n ≠ 4 := by
      constructor <;> rintro rfl <;> simp [sizeOfBytes] at hs
    simp only [windowAccess, hn.1, hn.2, false_and, and_false, or_false]
    simp
  | some sz =>
    have hsz : 1 ≤ sizeBytes sz := by cases sz <;> decide
    have hn := (sizeOfBytes_eq n sz).1 hs
    subst hn
    simp only
    by_cases h1 : off < regEnd
    · simp only [h1, if_true]
      simp only [regEnd] at h1
      constructor
      · rintro (⟨_, hn, ha⟩ | ⟨h, _⟩ | ⟨h, _⟩)
        · cases sz with
          | byte => simp [sizeBytes] at hn
          | word =>
            obtain ⟨reg, hreg⟩ := Option.isSome_iff_exists.1 ((regAt_isSome off).2 ⟨h1, ha⟩)
            simp only [decodeRegAccess, hreg]
            split
            · cases reg <;> exact ⟨_, rfl⟩
            · exact ⟨_, rfl⟩
        · omega
        · omega
      · rintro ⟨a, ha⟩
        simp only [decodeRegAccess] at ha
        split at ha
        · rename_i reg hreg
          have := (regAt_isSome off).1 (by rw [hreg]; rfl)
          exact .inl ⟨h1, rfl, this.2⟩
        · cases ha
    · simp only [h1, if_false]
      simp only [regEnd] at h1
      by_cases h2 : off < inBase
      · simp only [h2, if_true]
        simp only [inBase] at h2
        constructor
        · rintro (⟨h, _⟩ | ⟨h, _⟩ | ⟨h, _⟩) <;> omega
        · rintro ⟨a, ha⟩; cases ha
      · simp only [h2, if_false]
        simp only [inBase] at h2
        by_cases h3 : off < outBase
        · simp only [h3, if_true]
          simp only [outBase] at h3
          constructor
          · rintro (⟨h, _⟩ | ⟨_, h⟩ | ⟨h, _⟩)
            · omega
            · have hw : windowError c.inCap sz (off - inBase) = none := (windowError_none _ _ _).2 h
              simp only [decodeInAccess, hw]; exact ⟨_, rfl⟩
            · omega
          · rintro ⟨a, ha⟩
            simp only [decodeInAccess] at ha
            split at ha
            · cases ha
            · rename_i hw; exact .inr (.inl ⟨by omega, (windowError_none _ _ _).1 hw⟩)
        · simp only [h3, if_false]
          simp only [outBase] at h3
          have hwb := fun cap i => windowAccess_bound cap i sz
          by_cases h4 : off < blockEnd
          · simp only [h4, if_true]
            constructor
            · rintro (⟨h, _⟩ | ⟨_, h⟩ | ⟨_, hw, h⟩)
              · omega
              · have := hwb _ _ h; omega
              · subst hw
                have hw : windowError (outCap c) sz (off - outBase) = none := (windowError_none _ _ _).2 h
                simp only [decodeOutAccess, hw]; exact ⟨_, rfl⟩
            · rintro ⟨a, ha⟩
              simp only [decodeOutAccess] at ha
              split at ha
              · cases ha
              · rename_i hw
                split at ha
                · cases ha
                · rename_i hww; exact .inr (.inr ⟨by omega, by simpa using hw, (windowError_none _ _ _).1 hww⟩)
          · simp only [h4, if_false]
            simp only [blockEnd] at h4
            constructor
            · rintro (⟨h, _⟩ | ⟨_, h⟩ | ⟨_, _, h⟩)
              · omega
              · have := hwb _ _ h; omega
              · have := hwb _ _ h; omega
            · rintro ⟨a, ha⟩; cases ha

/-- Everything a write decodes to, by where its offset lies. -/
theorem decodeRequest_write (c : Config) (r : Request) (a : Access) (h : decodeRequest c r = .ok a)
    (hw : r.write = true) :
    (r.off = ctrlOff ∧ r.n = 4 ∧ a = .command (decodeCommand r.data)) ∨
    (∃ reg, reg ≠ .ctrl ∧ r.off = regOffset reg ∧ r.n = 4 ∧ a = .writeReg reg r.data) ∨
    (∃ sz i, r.off = inBase + i ∧ r.n = sizeBytes sz ∧ a = .writeIn sz i r.data) := by
  simp only [decodeRequest] at h
  repeat' split at h
  all_goals try cases h
  · rename_i sz hsz _
    cases hreg : regAt r.off with
    | none => cases sz <;> simp [decodeRegAccess, hreg] at h
    | some reg =>
      have ho := regOffset_of_regAt _ _ hreg
      cases sz with
      | byte => simp [decodeRegAccess] at h
      | word =>
        have hn : r.n = 4 := (sizeOfBytes_eq _ _).1 hsz
        cases reg <;> simp only [decodeRegAccess, hreg, hw, if_true] at h <;> cases h
        all_goals first
          | exact .inl ⟨ho.symm, hn, rfl⟩
          | exact .inr (.inl ⟨_, by decide, ho.symm, hn, rfl⟩)
  · rename_i sz hsz _ _ _
    simp only [decodeInAccess, hw, if_true] at h
    split at h <;> cases h
    exact .inr (.inr ⟨sz, _, by omega, (sizeOfBytes_eq _ _).1 hsz, rfl⟩)
  · simp only [decodeOutAccess, hw, if_true] at h
    cases h

/-- Everything a read decodes to, by where its offset lies. -/
theorem decodeRequest_read (c : Config) (r : Request) (a : Access) (h : decodeRequest c r = .ok a)
    (hw : r.write = false) :
    (∃ reg, r.off < regEnd ∧ a = .readReg reg) ∨ (∃ sz i, r.off < outBase ∧ a = .readIn sz i) ∨
    (∃ sz i, outBase ≤ r.off ∧ r.n = sizeBytes sz ∧ a = .readOut sz i) := by
  simp only [decodeRequest] at h
  repeat' split at h
  all_goals try cases h
  · simp only [decodeRegAccess, hw, Bool.false_eq_true, if_false] at h
    repeat' split at h
    all_goals cases h
    all_goals exact .inl ⟨_, ‹_›, rfl⟩
  · simp only [decodeInAccess, hw, Bool.false_eq_true, if_false] at h
    split at h <;> cases h
    exact .inr (.inl ⟨_, _, ‹_›, rfl⟩)
  · rename_i sz hsz _ _ _ _
    simp only [decodeOutAccess, hw, Bool.false_eq_true, if_false] at h
    split at h <;> cases h
    exact .inr (.inr ⟨sz, _, by omega, (sizeOfBytes_eq _ _).1 hsz, rfl⟩)

/-- Only an access to CTRL is a command, the one its data decodes to (R80). -/
theorem decodeRequest_isCommand (c : Config) (r : Request) (i : Instr)
    (h : decodeRequest c r = .ok (.command i)) : r.off = ctrlOff ∧ i = decodeCommand r.data := by
  simp only [decodeRequest] at h
  repeat' split at h
  all_goals try cases h
  · rename_i sz _ _
    unfold decodeRegAccess at h
    cases hreg : regAt r.off with
    | none => rw [hreg] at h; cases sz <;> cases h
    | some reg =>
      rw [hreg] at h
      have ho := regOffset_of_regAt _ _ hreg
      cases sz with
      | byte => cases h
      | word =>
        simp only at h
        split at h
        · cases reg <;> cases h
          exact ⟨ho.symm, rfl⟩
        · cases h
  · simp only [decodeInAccess] at h
    repeat' split at h
    all_goals cases h
  · simp only [decodeOutAccess] at h
    repeat' split at h
    all_goals cases h

/-! ## One access -/

/-- Everything a host access can do to the state. -/
theorem busAccess_cases (r : Request) (s t : State) (d : Word) (h : busAccess r s = .next (t, d)) :
    t = s ∨
    (s.busy = false ∧ ∃ o ic, t = storeCtrl o ic s) ∨
    (s.busy = false ∧ ∃ o ic, t = acceptCommand o ic s) ∨
    (∃ v, t = storeInLen v s) ∨
    (∃ sz i v, windowAccess s.cfg.inCap i (sizeBytes sz) ∧ t = storeIn sz i v s) ∨
    (∃ sz, t = countDraws sz s) := by
  unfold busAccess at h
  split at h
  · rename_i a ha
    cases a with
    | command i =>
      rcases exec_cases i s with ⟨-, he⟩ | ⟨hb, o, ic, -, he⟩ | ⟨hb, o, ic, he⟩ <;>
        simp only [performAccess, he, withoutData, Host.Outcome.next.injEq, Prod.mk.injEq] at h
      · exact .inl h.1.symm
      · exact .inr (.inl ⟨hb, o, ic, h.1.symm⟩)
      · exact .inr (.inr (.inl ⟨hb, o, ic, h.1.symm⟩))
    | readReg r =>
      simp only [performAccess, Host.Outcome.next.injEq, Prod.mk.injEq] at h
      exact .inl h.1.symm
    | writeReg r v =>
      simp only [performAccess, Host.Outcome.next.injEq, Prod.mk.injEq] at h
      cases r <;> first
        | exact .inl h.1.symm
        | exact .inr (.inr (.inr (.inl ⟨v, h.1.symm⟩)))
    | readIn sz i =>
      simp only [performAccess, Host.Outcome.next.injEq, Prod.mk.injEq] at h
      exact .inl h.1.symm
    | writeIn sz i v =>
      simp only [performAccess, Host.Outcome.next.injEq, Prod.mk.injEq] at h
      exact .inr (.inr (.inr (.inr (.inl ⟨sz, i, v, decodeRequest_writeIn _ _ _ _ _ ha, h.1.symm⟩))))
    | readOut sz i =>
      simp only [performAccess, Host.Outcome.next.injEq, Prod.mk.injEq] at h
      exact .inr (.inr (.inr (.inr (.inr ⟨sz, h.1.symm⟩))))
  · cases h

/-- An access either answers or is a bus error that names its offset; nothing is refused. -/
theorem busAccess_total (r : Request) (s : State) :
    (∃ t d, busAccess r s = .next (t, d)) ∨ (∃ cause, busAccess r s = .fault (.busError r.off cause)) := by
  unfold busAccess
  split
  · rename_i a ha
    left
    cases a with
    | command i =>
      rcases exec_cases i s with ⟨-, he⟩ | ⟨-, o, ic, -, he⟩ | ⟨-, o, ic, he⟩ <;>
        exact ⟨_, _, by simp only [performAccess, he, withoutData]; rfl⟩
    | readReg r => exact ⟨_, _, rfl⟩
    | writeReg r v => exact ⟨_, _, rfl⟩
    | readIn sz i => exact ⟨_, _, rfl⟩
    | writeIn sz i v => exact ⟨_, _, rfl⟩
    | readOut sz i => exact ⟨_, _, rfl⟩
  · exact .inr ⟨_, rfl⟩

/-- An access leaves the host's side and the parameters alone. -/
theorem busAccess_host (r : Request) (s t : State) (d : Word) (h : busAccess r s = .next (t, d)) :
    t.names = s.names ∧ t.program = s.program ∧ t.schedule = s.schedule ∧ t.cfg = s.cfg := by
  rcases busAccess_cases r s t d h with rfl | ⟨-, o, ic, rfl⟩ | ⟨hb, o, ic, rfl⟩ | ⟨v, rfl⟩ |
    ⟨sz, i, v, -, rfl⟩ | ⟨sz, rfl⟩ <;> simp

/-- While busy an access changes at most the count of draws. -/
theorem busAccess_of_busy (r : Request) (s t : State) (d : Word) (hb : s.busy = true)
    (h : busAccess r s = .next (t, d)) : t = s ∨ ∃ sz, t = countDraws sz s := by
  rcases busAccess_cases r s t d h with h | ⟨h, -⟩ | ⟨h, -⟩ | ⟨v, h⟩ | ⟨sz, i, v, -, h⟩ | ⟨sz, h⟩
  · exact .inl h
  · rw [hb] at h; cases h
  · rw [hb] at h; cases h
  · rw [storeInLen_of_busy v s hb] at h; exact .inl h
  · rw [storeIn_of_busy _ _ _ s hb] at h; exact .inl h
  · exact .inr ⟨sz, h⟩

/-- A legal read of IN. -/
theorem busAccess_in_read (s : State) (sz : Size) (i : Nat) (d : Word) (hc : s.cfg.wf)
    (h : windowAccess s.cfg.inCap i (sizeBytes sz)) :
    busAccess ⟨inBase + i, sizeBytes sz, false, d⟩ s = .next (s, loadFrom (inByte s) sz i) := by
  simp only [busAccess, decodeRequest_in s.cfg sz i false d hc h]; rfl

/-- A legal write of IN. -/
theorem busAccess_in_write (s : State) (sz : Size) (i : Nat) (d : Word) (hc : s.cfg.wf)
    (h : windowAccess s.cfg.inCap i (sizeBytes sz)) :
    busAccess ⟨inBase + i, sizeBytes sz, true, d⟩ s = .next (storeIn sz i d s, 0) := by
  simp only [busAccess, decodeRequest_in s.cfg sz i true d hc h]; rfl

/-- A legal read of OUT. -/
theorem busAccess_out_read (s : State) (sz : Size) (i : Nat) (d : Word) (hc : s.cfg.wf)
    (h : windowAccess (outCap s.cfg) i (sizeBytes sz)) :
    busAccess ⟨outBase + i, sizeBytes sz, false, d⟩ s = .next (countDraws sz s, loadOut sz i s) := by
  simp only [busAccess, decodeRequest_out_read s.cfg sz i d hc h]; rfl

/-- What the host does with the data touches no part of the block. -/
theorem hostFinish_block (op : HostOp) (d : Word) (t : State) :
    (hostFinish op d t).op = t.op ∧ (hostFinish op d t).ignoreCase = t.ignoreCase ∧
    (hostFinish op d t).inLen = t.inLen ∧ SameIn t (hostFinish op d t) ∧
    (hostFinish op d t).cfg = t.cfg ∧ (hostFinish op d t).busy = t.busy ∧
    (hostFinish op d t).schedule = t.schedule := by
  cases op <;> try exact ⟨rfl, rfl, rfl, fun _ => rfl, rfl, rfl, rfl⟩
  simp only [hostFinish]
  split <;> exact ⟨rfl, rfl, rfl, fun _ => rfl, rfl, rfl, rfl⟩

/-- A binding of a name keeps the names in canonical form. -/
theorem bindName_names_sorted (x : Nat) (v : Word) (s : State)
    (h : s.names.Pairwise (fun a b => a.1 < b.1)) :
    (bindName x v s).names.Pairwise (fun a b => a.1 < b.1) := cellSet_sorted _ _ _ h

/-! ## One step -/

/-- The host's turn with a line left: the line's access, and then what the host does with its data (R86). -/
theorem hostTurn_cons (s : State) (op : HostOp) (rest : List HostOp) (h : s.program = op :: rest) :
    hostTurn s = hostTake op (busAccess (hostRequest s op) { s with program := rest }) := by
  simp only [hostTurn, h]

/-- The host's turn with no line left (log entry 4). -/
theorem hostTurn_nil (s : State) (h : s.program = []) : hostTurn s = .next s := by
  simp only [hostTurn, h]

theorem step_scheduled (s : State) (t : Turn) (rest : List Turn) (h : s.schedule = t :: rest) :
    step s = takeTurn t { s with schedule := rest } := by
  simp only [step, nextStep, h]

theorem step_unscheduled (s : State) (h : s.schedule = []) : step s = takeTurn (defaultTurn s) s := by
  simp only [step, nextStep, h]

/-- The state a turn starts from: the schedule's head is used up. -/
def afterTurn (s : State) : State := { s with schedule := s.schedule.tail }

/-- Everything a step can do. -/
theorem step_cases (s t : State) (h : step s = .next t) :
    t = resetBlock (afterTurn s) ∨
    t = engineTurn (afterTurn s) ∨
    t = afterTurn s ∨
    ∃ op rest u d, s.program = op :: rest ∧
      busAccess (hostRequest s op) { afterTurn s with program := rest } = .next (u, d) ∧
      t = hostFinish op d u := by
  have host : ∀ s' : State, s' = afterTurn s → hostTurn s' = .next t → t = afterTurn s ∨
      ∃ op rest u d, s.program = op :: rest ∧
        busAccess (hostRequest s op) { afterTurn s with program := rest } = .next (u, d) ∧
        t = hostFinish op d u := by
    intro s' hs' ht
    subst hs'
    unfold hostTurn at ht
    split at ht
    · cases ht; exact .inl rfl
    · rename_i op rest hp
      right
      have hr : hostRequest (afterTurn s) op = hostRequest s op := by cases op <;> rfl
      rw [hr] at ht
      cases hbus : busAccess (hostRequest s op) { afterTurn s with program := rest } with
      | next p => rw [hbus] at ht; cases ht; exact ⟨op, rest, p.1, p.2, hp, hbus, rfl⟩
      | fault f => rw [hbus] at ht; cases ht
      | refused f => rw [hbus] at ht; cases ht
  unfold step nextStep at h
  split at h
  · rename_i hs
    have hself : s = afterTurn s := by cases s; cases hs; rfl
    simp only [defaultTurn] at h
    split at h
    · cases h; exact .inr (.inl (by rw [← hself]))
    · exact .inr (.inr (host s hself h))
  · rename_i turn rest hs
    have htail : { s with schedule := rest } = afterTurn s := by simp [afterTurn, hs]
    rw [htail] at h
    cases turn with
    | host => exact .inr (.inr (host _ rfl h))
    | engine => cases h; exact .inr (.inl rfl)
    | reset => cases h; exact .inl rfl

end Sys2Proof.Machine
end

