-- ==== Sys2Proof/Laws/Codec.lean ====
section
/-! SUPPORT. The codec: the Alphabet's tables are inverse, what the unpacker and the encoder produce as
numbers, and the shape of padded texts. -/

namespace Sys2Proof.Machine


/-! ## The Alphabet -/

theorem inv_sym (v : BitVec 5) : inv (sym v) = some v := by revert v; decide

theorem fold_sym (v : BitVec 5) : fold (sym v) = sym v := by revert v; decide

theorem lookup_sym (ic : Bool) (v : BitVec 5) : lookup ic (sym v) = some v := by
  cases ic <;> simp [lookup, fold_sym, inv_sym]

theorem sym_ne_pad (v : BitVec 5) : sym v ≠ padByte := by revert v; decide

@[simp] theorem isPad_sym (v : BitVec 5) : isPad (sym v) = false := by simp [isPad, sym_ne_pad]

@[simp] theorem isPad_padByte : isPad padByte = true := by decide

theorem isPad_iff (c : Byte) : isPad c = true ↔ c = padByte := by simp [isPad]

theorem lookup_padByte (ic : Bool) : lookup ic padByte = none := by revert ic; decide

/-- A byte of the Alphabet, after folding, is the symbol of its value. -/
theorem sym_of_inv (c : Byte) (v : BitVec 5) (h : inv c = some v) : sym v = c := by
  revert c v; decide

theorem lookup_of_isWs (ic : Bool) (c : Byte) (h : isWs c = true) : lookup ic c = none := by
  revert ic c; decide

/-! ## Numbers that byte and symbol sequences stand for -/

theorem foldl_base (β : Type) (n : Nat) (f : β → Nat) (l : List β) (a : Nat) :
    l.foldl (fun a b => n * a + f b) a = a * n ^ l.length + l.foldl (fun a b => n * a + f b) 0 := by
  induction l generalizing a with
  | nil => simp
  | cons b l ih =>
    rw [List.foldl_cons, List.foldl_cons, ih, ih (n * 0 + f b), List.length_cons, pow_succ]
    ring

theorem bytesValue_cons (b : Byte) (bs : List Byte) :
    bytesValue (b :: bs) = b.toNat * 256 ^ bs.length + bytesValue bs := by
  simp only [bytesValue, List.foldl_cons]; rw [foldl_base]; simp

theorem symbolsValue_cons (v : BitVec 5) (vs : List (BitVec 5)) :
    symbolsValue (v :: vs) = v.toNat * 32 ^ vs.length + symbolsValue vs := by
  simp only [symbolsValue, List.foldl_cons]; rw [foldl_base]; simp

theorem bytesValue_append (a b : List Byte) :
    bytesValue (a ++ b) = bytesValue a * 256 ^ b.length + bytesValue b := by
  simp only [bytesValue, List.foldl_append]; rw [foldl_base]

theorem symbolsValue_append (a b : List (BitVec 5)) :
    symbolsValue (a ++ b) = symbolsValue a * 32 ^ b.length + symbolsValue b := by
  simp only [symbolsValue, List.foldl_append]; rw [foldl_base]

theorem bytesValue_lt (bs : List Byte) : bytesValue bs < 256 ^ bs.length := by
  induction bs with
  | nil => simp [bytesValue]
  | cons b bs ih =>
    rw [bytesValue_cons, List.length_cons, pow_succ]
    have := b.isLt
    have h2 : b.toNat * 256 ^ bs.length ≤ 255 * 256 ^ bs.length := Nat.mul_le_mul_right _ (by omega)
    omega

theorem symbolsValue_lt (vs : List (BitVec 5)) : symbolsValue vs < 32 ^ vs.length := by
  induction vs with
  | nil => simp [symbolsValue]
  | cons v vs ih =>
    rw [symbolsValue_cons, List.length_cons, pow_succ]
    have := v.isLt
    have h2 : v.toNat * 32 ^ vs.length ≤ 31 * 32 ^ vs.length := Nat.mul_le_mul_right _ (by omega)
    omega

/-- Byte sequences of one length with one number are equal. -/
theorem bytes_eq_of_value (a b : List Byte) (hl : a.length = b.length)
    (hv : bytesValue a = bytesValue b) : a = b := by
  induction a generalizing b with
  | nil => cases b with
    | nil => rfl
    | cons _ _ => simp at hl
  | cons x a ih =>
    cases b with
    | nil => simp at hl
    | cons y b =>
      simp only [List.length_cons, Nat.add_right_cancel_iff] at hl
      rw [bytesValue_cons, bytesValue_cons, hl] at hv
      have ha := bytesValue_lt a
      have hb := bytesValue_lt b
      rw [hl] at ha
      have hpos : 0 < 256 ^ b.length := Nat.pos_of_ne_zero (by positivity)
      have hx : x.toNat = y.toNat := by
        have h1 := congrArg (· / 256 ^ b.length) hv
        simp only [Nat.mul_comm _ (256 ^ b.length), Nat.mul_add_div hpos,
          Nat.div_eq_of_lt ha, Nat.div_eq_of_lt hb] at h1
        omega
      have hxy : x = y := BitVec.eq_of_toNat_eq hx
      subst hxy
      exact congrArg _ (ih b hl (by omega))

/-! ## The unpacker -/

theorem accPush_toNat (acc : BitVec 12) (k : Nat) (v : BitVec 5) (hk : k < 8) (ha : acc.toNat < 2 ^ k) :
    (accPush acc v).toNat = acc.toNat * 32 + v.toNat := by
  have hk7 : acc.toNat < 128 := lt_of_lt_of_le ha (by
    calc 2 ^ k ≤ 2 ^ 7 := Nat.pow_le_pow_right (by omega) (by omega)
      _ = 128 := rfl)
  have hv := v.isLt
  have h1 : (acc <<< 5).toNat = acc.toNat * 32 := by
    rw [BitVec.toNat_shiftLeft, Nat.shiftLeft_eq]; omega
  have h2 : (v.zeroExtend 12).toNat = v.toNat := by simp; omega
  rw [accPush, BitVec.toNat_or, h1, h2, show acc.toNat * 32 = acc.toNat <<< 5 by rw [Nat.shiftLeft_eq]]
  rw [Nat.shiftLeft_add_eq_or_of_lt (by omega)]

theorem accMask_toNat (k : Nat) (h : k ≤ 4) : (accMask k).toNat = 2 ^ k - 1 := by
  have : k = 0 ∨ k = 1 ∨ k = 2 ∨ k = 3 ∨ k = 4 := by omega
  rcases this with rfl | rfl | rfl | rfl | rfl <;> rfl

theorem accKeep_toNat (acc : BitVec 12) (k : Nat) (h : k ≤ 4) :
    (acc &&& accMask k).toNat = acc.toNat % 2 ^ k := by
  rw [BitVec.toNat_and, accMask_toNat k h, Nat.and_two_pow_sub_one_eq_mod]

theorem accTop_toNat (acc : BitVec 12) (k : Nat) (h8 : 8 ≤ k) (h : acc.toNat < 2 ^ k) :
    (accTop acc k).toNat = acc.toNat / 2 ^ (k - 8) := by
  have hlt : acc.toNat / 2 ^ (k - 8) < 256 := by
    rw [Nat.div_lt_iff_lt_mul (by positivity)]
    calc acc.toNat < 2 ^ k := h
      _ = 2 ^ (8 + (k - 8)) := by congr 1; omega
      _ = 256 * 2 ^ (k - 8) := by rw [Nat.pow_add]
  have h1 : ((acc >>> (k - 8)) &&& 0xFF#12).toNat = acc.toNat / 2 ^ (k - 8) := by
    rw [BitVec.toNat_and, BitVec.toNat_ushiftRight, Nat.shiftRight_eq_div_pow,
      show (0xFF#12).toNat = 2 ^ 8 - 1 by rfl, Nat.and_two_pow_sub_one_eq_mod, Nat.mod_eq_of_lt hlt]
  show (((acc >>> (k - 8)) &&& 0xFF#12).setWidth 8).toNat = _
  rw [BitVec.toNat_setWidth, h1, Nat.mod_eq_of_lt hlt]

/-- A text whose characters all have values unpacks. -/
theorem unpack_ok (ic : Bool) (s : List Byte) (h : ∀ c ∈ s, (lookup ic c).isSome) (pos : Nat)
    (acc : BitVec 12) (k : Nat) : ∃ out, unpack ic s pos acc k = .ok out := by
  induction s generalizing pos acc k with
  | nil => exact ⟨[], rfl⟩
  | cons c s ih =>
    obtain ⟨v, hv⟩ := Option.isSome_iff_exists.1 (h c List.mem_cons_self)
    have hs := ih fun d hd => h d (List.mem_cons_of_mem _ hd)
    simp only [unpack, hv]
    split
    · obtain ⟨o, ho⟩ := hs (pos + 1) (accPush acc v &&& accMask (k + 5 - 8)) (k + 5 - 8)
      exact ⟨_, by rw [ho]⟩
    · exact hs _ _ _

/-- A text that unpacks has a value for every character. -/
theorem lookup_of_unpack_ok (ic : Bool) (s : List Byte) (pos : Nat) (acc : BitVec 12) (k : Nat)
    (out : List Byte) (h : unpack ic s pos acc k = .ok out) : ∀ c ∈ s, (lookup ic c).isSome := by
  induction s generalizing pos acc k out with
  | nil => simp
  | cons c s ih =>
    simp only [unpack] at h
    split at h
    · cases h
    · rename_i v hv
      intro d hd
      rcases List.mem_cons.1 hd with rfl | hd
      · simp [hv]
      · split at h
        · split at h
          · rename_i o ho; exact ih _ _ _ _ ho d hd
          · cases h
        · exact ih _ _ _ _ h d hd

theorem unpack_length (ic : Bool) (s : List Byte) (pos : Nat) (acc : BitVec 12) (k : Nat)
    (out : List Byte) (hk : k < 8) (h : unpack ic s pos acc k = .ok out) :
    out.length = (k + 5 * s.length) / 8 := by
  induction s generalizing pos acc k out with
  | nil => simp only [unpack, Except.ok.injEq] at h; subst h; simp; omega
  | cons c s ih =>
    simp only [unpack] at h
    split at h
    · cases h
    · split at h
      · split at h
        · rename_i o ho
          cases h
          have := ih _ _ _ _ (by omega) ho
          simp only [List.length_cons, this]; omega
        · cases h
      · have := ih _ _ _ _ (by omega) h
        simp only [List.length_cons, this]; omega

theorem textValues_length (ic : Bool) (s : List Byte) (h : ∀ c ∈ s, (lookup ic c).isSome) :
    (textValues ic s).length = s.length := by
  induction s with
  | nil => rfl
  | cons d l ihl =>
    obtain ⟨v, hv⟩ := Option.isSome_iff_exists.1 (h d List.mem_cons_self)
    simp only [textValues] at ihl
    simp [textValues, hv, ihl fun e he => h e (List.mem_cons_of_mem _ he)]

/-- The unpacker's whole effect: its output is the number of the buffered bits and the symbols, less
the residual bits (R144, R146). -/
theorem unpack_value (ic : Bool) (s : List Byte) (pos : Nat) (acc : BitVec 12) (k : Nat)
    (out : List Byte) (hk : k < 8) (ha : acc.toNat < 2 ^ k) (h : unpack ic s pos acc k = .ok out) :
    bytesValue out =
      (acc.toNat * 32 ^ s.length + symbolsValue (textValues ic s)) / 2 ^ ((k + 5 * s.length) % 8) := by
  induction s generalizing pos acc k out with
  | nil =>
    simp only [unpack, Except.ok.injEq] at h; subst h
    have h2 : acc.toNat / 2 ^ k = 0 := Nat.div_eq_of_lt ha
    simp [bytesValue, symbolsValue, textValues, Nat.mod_eq_of_lt hk, h2]
  | cons c s ih =>
    have hall := lookup_of_unpack_ok ic (c :: s) pos acc k out h
    have hlen := textValues_length ic s fun d hd => hall d (List.mem_cons_of_mem _ hd)
    simp only [unpack] at h
    split at h
    · cases h
    · rename_i v hv
      have hpush := accPush_toNat acc k v hk ha
      have htv : textValues ic (c :: s) = v :: textValues ic s := by simp [textValues, hv]
      have hlt : (accPush acc v).toNat < 2 ^ (k + 5) := by
        rw [hpush, Nat.pow_add]; have := v.isLt
        have : acc.toNat * 32 + 32 ≤ 2 ^ k * 32 := by omega
        omega
      have hsum : acc.toNat * 32 ^ (c :: s).length + symbolsValue (textValues ic (c :: s)) =
          (accPush acc v).toNat * 32 ^ s.length + symbolsValue (textValues ic s) := by
        rw [htv, symbolsValue_cons, hlen, hpush, List.length_cons, pow_succ]; ring
      rw [hsum]
      split at h
      · rename_i h8
        split at h
        · rename_i o ho
          cases h
          have hol := unpack_length ic s _ _ _ o (by omega) ho
          have hkeep := accKeep_toNat (accPush acc v) (k + 5 - 8) (by omega)
          have hval := ih _ _ _ _ (by omega)
            (by rw [hkeep]; exact Nat.mod_lt _ (by positivity)) ho
          have htop := accTop_toNat (accPush acc v) (k + 5) h8 hlt
          rw [bytesValue_cons, hval, htop, hkeep, hol, List.length_cons]
          generalize (accPush acc v).toNat = A at *
          generalize symbolsValue (textValues ic s) = S at *
          generalize s.length = n at *
          have hmod : (k + 5 * (n + 1)) % 8 = (k + 5 - 8 + 5 * n) % 8 := by omega
          rw [hmod]
          set r := (k + 5 - 8 + 5 * n) % 8
          set q := (k + 5 - 8 + 5 * n) / 8
          have hrq : 5 * n + (k + 5 - 8) = 8 * q + r := by omega
          have hA : A = A / 2 ^ (k + 5 - 8) * 2 ^ (k + 5 - 8) + A % 2 ^ (k + 5 - 8) := by
            rw [Nat.mul_comm]; exact (Nat.div_add_mod _ _).symm
          have hexp : 2 ^ (k + 5 - 8) * 32 ^ n = 256 ^ q * 2 ^ r := by
            rw [show (32 : Nat) = 2 ^ 5 by rfl, show (256 : Nat) = 2 ^ 8 by rfl, ← Nat.pow_mul, ← Nat.pow_mul,
              ← Nat.pow_add, ← Nat.pow_add]; congr 1; omega
          have : A * 32 ^ n + S =
              (A / 2 ^ (k + 5 - 8) * 256 ^ q) * 2 ^ r + (A % 2 ^ (k + 5 - 8) * 32 ^ n + S) := by
            conv_lhs => rw [hA]
            rw [Nat.add_mul, Nat.mul_assoc, hexp]; ring
          rw [this, Nat.mul_comm _ (2 ^ r), Nat.mul_add_div (by positivity)]
        · cases h
      · rename_i h8
        have hval := ih _ _ _ _ (by omega) hlt h
        rw [hval]
        congr 2
        simp only [List.length_cons]; congr 1; omega

/-! ## The encoder -/

@[simp] theorem encodeBlock_length (blk : List Byte) : (encodeBlock blk).length = 8 := by
  simp [encodeBlock]

theorem encodeBlocks_length (b : List Byte) : (encodeBlocks b).length = 8 * blockCount b.length := by
  simp [encodeBlocks, List.length_flatMap, Nat.mul_comm]

theorem encodeBlocks_step (b : List Byte) (h : 5 ≤ b.length) :
    encodeBlocks b = encodeBlock (b.take 5) ++ encodeBlocks (b.drop 5) := by
  have hc : blockCount b.length = blockCount (b.drop 5).length + 1 := by
    simp only [blockCount, List.length_drop]; omega
  simp only [encodeBlocks, hc, List.range_succ_eq_map, List.flatMap_cons, List.flatMap_map]
  have hd : ∀ k, 5 + 5 * k = 5 * (k + 1) := fun k => by omega
  simp [inputBlock, List.drop_drop, hd]

theorem encodeBlocks_short (b : List Byte) (h0 : 0 < b.length) (h : b.length ≤ 5) :
    encodeBlocks b = encodeBlock b := by
  have hc : blockCount b.length = 1 := by simp only [blockCount]; omega
  simp [encodeBlocks, hc, inputBlock, List.take_of_length_le h]

/-- The values of a block's data symbols (R124). -/
def blockData (blk : List Byte) : List (BitVec 5) :=
  (List.range (dataSymbols blk.length)).map (blockField (blockValue blk))

theorem dataSymbols_le (m : Nat) : dataSymbols m ≤ 8 := by
  unfold dataSymbols; repeat' split
  all_goals omega

/-- DS(m) = ceil(8m / 5) (R126). -/
theorem dataSymbols_eq (m : Nat) (h : m ≤ 5) : dataSymbols m = (8 * m + 4) / 5 := by
  have : m = 0 ∨ m = 1 ∨ m = 2 ∨ m = 3 ∨ m = 4 ∨ m = 5 := by omega
  rcases this with rfl | rfl | rfl | rfl | rfl | rfl <;> rfl

@[simp] theorem blockData_length (blk : List Byte) :
    (blockData blk).length = dataSymbols blk.length := by simp [blockData]

/-- A block is its data symbols and then its padding (R126, R127). -/
theorem encodeBlock_eq (blk : List Byte) :
    encodeBlock blk =
      (blockData blk).map sym ++ List.replicate (8 - dataSymbols blk.length) padByte := by
  have hle := dataSymbols_le blk.length
  apply List.ext_getElem
  · simp; omega
  · intro i h1 h2
    simp only [encodeBlock_length] at h1
    rw [List.getElem_append]
    split
    · rename_i h3
      simp only [List.length_map, blockData_length] at h3
      simp [encodeBlock, blockSymbol, blockData, h3]
    · rename_i h3
      simp only [List.length_map, blockData_length] at h3
      simp [encodeBlock, blockSymbol, h3]

theorem blockField_toNat (v : BitVec 40) (p : Nat) :
    (blockField v p).toNat = v.toNat / 2 ^ (35 - 5 * p) % 32 := by
  simp [blockField, Nat.shiftRight_eq_div_pow]

/-- The first q fields of a block value are its top 5q bits. -/
theorem fieldsValue (v : BitVec 40) (q : Nat) (hq : q ≤ 8) :
    symbolsValue ((List.range q).map (blockField v)) = v.toNat / 2 ^ (40 - 5 * q) := by
  induction q with
  | zero =>
    have := v.isLt
    simp only [List.range_zero, List.map_nil, symbolsValue, List.foldl_nil]
    exact (Nat.div_eq_of_lt (by simpa using this)).symm
  | succ q ih =>
    rw [List.range_succ, List.map_append, symbolsValue_append, ih (by omega)]
    have h1 : symbolsValue ([q].map (blockField v)) = v.toNat / 2 ^ (35 - 5 * q) % 32 := by
      simp [symbolsValue, blockField_toNat]
    have h2 : v.toNat / 2 ^ (40 - 5 * q) = v.toNat / 2 ^ (35 - 5 * q) / 32 := by
      rw [Nat.div_div_eq_div_mul, show (32 : Nat) = 2 ^ 5 by rfl, ← Nat.pow_add]
      congr 2; omega
    have h3 : 40 - 5 * (q + 1) = 35 - 5 * q := by omega
    rw [h1, h2, h3]
    simp only [List.map_cons, List.map_nil, List.length_singleton, pow_one]
    omega

theorem blockValue_toNat (blk : List Byte) (h : blk.length ≤ 5) :
    (blockValue blk).toNat = bytesValue blk * 256 ^ (5 - blk.length) := by
  have key : ∀ a b c d e : Byte, (a ++ b ++ c ++ d ++ e : BitVec 40).toNat =
      a.toNat * 256 ^ 4 + b.toNat * 256 ^ 3 + c.toNat * 256 ^ 2 + d.toNat * 256 + e.toNat := by
    intro a b c d e
    have := a.isLt; have := b.isLt; have := c.isLt; have := d.isLt; have := e.isLt
    simp only [BitVec.toNat_append]
    repeat rw [← Nat.shiftLeft_add_eq_or_of_lt (by omega), Nat.shiftLeft_eq]
    omega
  simp only [blockValue, key, blockByte]
  match blk, h with
  | [], _ => simp [bytesValue]
  | [a], _ => simp [bytesValue]
  | [a, b], _ => simp [bytesValue]; ring
  | [a, b, c], _ => simp [bytesValue]; ring
  | [a, b, c, d], _ => simp [bytesValue]; ring
  | [a, b, c, d, e], _ => simp [bytesValue]; ring
  | _ :: _ :: _ :: _ :: _ :: _ :: _, h => simp at h; omega

/-- A block's data symbols spell its bytes, with zero bits filled in on the right (R125). -/
theorem blockData_value (blk : List Byte) (h : blk.length ≤ 5) :
    symbolsValue (blockData blk) =
      bytesValue blk * 2 ^ (5 * dataSymbols blk.length - 8 * blk.length) := by
  rw [blockData, fieldsValue _ _ (dataSymbols_le _), blockValue_toNat blk h,
    dataSymbols_eq _ h, show (256 : Nat) = 2 ^ 8 by rfl, ← Nat.pow_mul]
  have he : 8 * (5 - blk.length) =
      (5 * ((8 * blk.length + 4) / 5) - 8 * blk.length) + (40 - 5 * ((8 * blk.length + 4) / 5)) := by
    omega
  rw [he, Nat.pow_add, ← Nat.mul_assoc, Nat.mul_div_cancel _ (by positivity)]

/-- The encoder's whole effect: the text is symbols and then padding, the symbols spell the input with
zero bits filled in on the right, and their number is ceil(8n / 5) (R124 to R131). -/
theorem encodeBlocks_spec (b : List Byte) :
    ∃ vs : List (BitVec 5),
      encodeBlocks b =
        vs.map sym ++ List.replicate (8 * blockCount b.length - (8 * b.length + 4) / 5) padByte ∧
      vs.length = (8 * b.length + 4) / 5 ∧
      symbolsValue vs = bytesValue b * 2 ^ (5 * vs.length - 8 * b.length) := by
  induction hn : b.length using Nat.strongRecOn generalizing b with
  | ind n ih =>
    by_cases h5 : 5 ≤ n
    · have hlt : (b.take 5).length = 5 := by simp; omega
      have hld : (b.drop 5).length = n - 5 := by simp; omega
      obtain ⟨vs, htext, hlen, hval⟩ := ih (n - 5) (by omega) (b.drop 5) hld
      refine ⟨blockData (b.take 5) ++ vs, ?_, ?_, ?_⟩
      · rw [encodeBlocks_step b (by omega), encodeBlock_eq, htext, hlt]
        have : 8 - dataSymbols 5 = 0 := rfl
        rw [this, List.replicate_zero, List.append_nil, List.map_append, List.append_assoc]
        have e1 : (n + 4) / 5 = (n - 5 + 4) / 5 + 1 := by omega
        have e2 : (8 * n + 4) / 5 = (8 * (n - 5) + 4) / 5 + 8 := by omega
        congr 3
        simp only [blockCount, e1, e2]; omega
      · simp only [List.length_append, blockData_length, hlt, hlen, dataSymbols]; simp; omega
      · have hb : bytesValue b = bytesValue (b.take 5) * 256 ^ (n - 5) + bytesValue (b.drop 5) := by
          conv_lhs => rw [← List.take_append_drop 5 b]
          rw [bytesValue_append, hld]
        have hd5 : dataSymbols 5 = 8 := rfl
        rw [symbolsValue_append, blockData_value _ (by omega), hval, hb, List.length_append,
          blockData_length, hlt, hd5]
        have e1 : 5 * (8 + vs.length) - 8 * n = 5 * vs.length - 8 * (n - 5) := by omega
        have e2 : 32 ^ vs.length = 256 ^ (n - 5) * 2 ^ (5 * vs.length - 8 * (n - 5)) := by
          rw [show (32 : Nat) = 2 ^ 5 by rfl, show (256 : Nat) = 2 ^ 8 by rfl, ← Nat.pow_mul,
            ← Nat.pow_mul, ← Nat.pow_add]
          congr 1; omega
        rw [e1, e2]; ring
    · by_cases h0 : n = 0
      · have hb : b = [] := List.length_eq_zero_iff.1 (by omega)
        subst hb; subst hn
        exact ⟨[], rfl, rfl, by simp [symbolsValue, bytesValue]⟩
      · refine ⟨blockData b, ?_, ?_, ?_⟩
        · rw [encodeBlocks_short b (by omega) (by omega), encodeBlock_eq, dataSymbols_eq _ (by omega)]
          congr 2
          simp only [blockCount, hn]; omega
        · rw [blockData_length, dataSymbols_eq _ (by omega), hn]
        · rw [blockData_value b (by omega), blockData_length, hn]

/-! ## The validator -/

theorem dropWhile_all_pad (s : List Byte) (h : rejectsInnerPad s = false) :
    ∀ c ∈ s.dropWhile (fun c => !isPad c), c = padByte := by
  intro c hc
  simp only [rejectsInnerPad, List.any_eq_false] at h
  have := h c hc
  simpa [isPad_iff] using this

/-- Padding is a suffix (R165). -/
theorem padding_suffix (s : List Byte) (h : rejectsInnerPad s = false) :
    s = s.takeWhile (fun c => !isPad c) ++
      List.replicate (s.dropWhile (fun c => !isPad c)).length padByte := by
  have h1 := List.eq_replicate_iff.2 ⟨rfl, dropWhile_all_pad s h⟩
  conv_lhs => rw [← List.takeWhile_append_dropWhile (p := fun c => !isPad c) (l := s)]
  rw [← h1]

theorem firstPad_append (d : List Byte) (n : Nat) (h : ∀ c ∈ d, isPad c = false) :
    firstPad (d ++ List.replicate n padByte) = d.length := by
  have hd : d.findIdx isPad = d.length := List.findIdx_eq_length_of_false (by simpa using h)
  unfold firstPad
  rw [List.findIdx_append, hd]
  simp only [Nat.lt_irrefl, if_false]
  cases n with
  | zero => simp
  | succ n => simp [List.replicate_succ, List.findIdx_cons]

theorem dataRegion_append (d : List Byte) (n : Nat) (h : ∀ c ∈ d, isPad c = false) :
    dataRegion (d ++ List.replicate n padByte) = d := by
  rw [dataRegion, firstPad_append d n h]; simp

theorem padSpan_append (d : List Byte) (n : Nat) (h : ∀ c ∈ d, isPad c = false) :
    padSpan (d ++ List.replicate n padByte) = n := by
  cases n with
  | zero =>
    have : (d ++ List.replicate 0 padByte).any isPad = false := by simpa using h
    rw [padSpan, this]; rfl
  | succ n =>
    have hany : (d ++ List.replicate (n + 1) padByte).any isPad = true := by simp
    have hlast : lastPad (d ++ List.replicate (n + 1) padByte) = d.length + n := by
      rw [lastPad, List.reverse_append, List.reverse_replicate, List.replicate_succ, List.cons_append,
        List.findIdx_cons, isPad_padByte]
      simp
    rw [padSpan, hany, hlast, firstPad_append d _ h]
    simp only [if_true]; omega

theorem rejectsInnerPad_append (d : List Byte) (n : Nat) (h : ∀ c ∈ d, isPad c = false) :
    rejectsInnerPad (d ++ List.replicate n padByte) = false := by
  have h1 : (d ++ List.replicate n padByte).dropWhile (fun c => !isPad c) =
      (List.replicate n padByte).dropWhile (fun c => !isPad c) :=
    List.dropWhile_append_of_pos (by simpa using h)
  have h2 : (List.replicate n padByte).dropWhile (fun c => !isPad c) = List.replicate n padByte := by
    cases n <;> simp [List.replicate_succ]
  rw [rejectsInnerPad, h1, h2]; simp

theorem isPad_of_lookup (ic : Bool) (c : Byte) (h : (lookup ic c).isSome) : isPad c = false := by
  cases hp : isPad c with
  | false => rfl
  | true => rw [(isPad_iff c).1 hp, lookup_padByte] at h; simp at h

end Sys2Proof.Machine
end

