-- ==== Sys2Proof/Laws/Engine.lean ====
section
/-! SUPPORT. The completion step: what every commit leaves alone, and how long an admitted output is. -/

namespace Sys2Proof.Machine

/-! ## Commits -/

/-- No commit touches the operands or the surroundings. -/
theorem commit_frame (r : CommandResult) (s : State) : CompletionFrame s (commit r s) := by
  cases r with
  | ok bytes => exact ⟨rfl, rfl, rfl, fun _ => rfl, rfl, rfl, rfl, rfl, rfl, rfl⟩
  | verdict v => exact ⟨rfl, rfl, rfl, fun _ => rfl, rfl, rfl, rfl, rfl, rfl, rfl⟩
  | err e => cases e <;> exact ⟨rfl, rfl, rfl, fun _ => rfl, rfl, rfl, rfl, rfl, rfl, rfl⟩

/-- Every commit ends the command. -/
theorem commit_busy (r : CommandResult) (s : State) : (commit r s).busy = false := by
  cases r with
  | ok bytes => rfl
  | verdict v => rfl
  | err e => cases e <;> rfl

theorem commit_done (r : CommandResult) (s : State) : (commit r s).done = true := by
  cases r with
  | ok bytes => rfl
  | verdict v => rfl
  | err e => cases e <;> rfl

theorem commitBytes_out (bytes : List Byte) (s : State) : OutHolds bytes s (commitBytes bytes s) := by
  constructor
  · intro i h; rw [outByte_commitBytes, dif_pos h]
  · intro i h; rw [outByte_commitBytes, dif_neg (by omega)]

/-! ## Lengths -/

theorem commandInput_length (s : State) : (commandInput s).length = s.inLen.toNat := by
  simp [commandInput, inputLength]

/-- OUT_LEN's 32 bits hold every length an instance's OUT admits. -/
theorem toNat_ofNat_of_le_outCap (c : Config) (n : Nat) (hc : c.wf) (h : n ≤ outCap c) :
    (BitVec.ofNat 32 n).toNat = n := by
  have h1 := hc.2
  simp only [outCap] at h
  rw [BitVec.toNat_ofNat]
  exact Nat.mod_eq_of_lt (by omega)

theorem encodeText_length (b text : List Byte) (h : encodeText b = .ok text) :
    text.length = 8 * ((b.length + 4) / 5) := by
  unfold encodeText at h
  split at h
  · cases h
  · cases h; exact encodeBlocks_length b

theorem firstPad_le (s : List Byte) : firstPad s ≤ s.length := List.findIdx_le_length

theorem decodeText_length (ic : Bool) (s out : List Byte) (h : decodeText ic s = .ok out) :
    out.length = 5 * firstPad s / 8 := by
  unfold decodeText at h
  split at h
  · have := unpack_length ic _ 0 0 0 out (by omega) h
    rw [this, dataRegion, List.length_take, Nat.min_eq_left (firstPad_le s), Nat.zero_add]
  · cases h

/-- A text that validates decodes: its data characters all have values (R147). -/
theorem lookup_of_valid (ic : Bool) (s : List Byte) (h : validateText ic s = true) :
    ∀ c ∈ s, isPad c = false → (lookup ic c).isSome := by
  intro c hc hp
  simp only [validateText, Bool.and_eq_true, Bool.not_eq_true'] at h
  have h4 := h.1.1.2
  simp only [rejectsCharacter, List.any_eq_false] at h4
  have := h4 c hc
  simpa [hp, Option.isSome_iff_ne_none] using this

theorem dataRegion_not_pad (s : List Byte) : ∀ c ∈ dataRegion s, isPad c = false := by
  intro c hc
  obtain ⟨i, hi, rfl⟩ := List.mem_iff_getElem.1 hc
  simp only [dataRegion, List.length_take] at hi
  simp only [dataRegion, List.getElem_take]
  have := List.not_of_lt_findIdx (p := isPad) (xs := s) (i := i) (by simp only [firstPad] at hi; omega)
  simpa using this

theorem decodeText_of_valid (ic : Bool) (s : List Byte) (h : validateText ic s = true) :
    ∃ out, decodeText ic s = .ok out := by
  simp only [decodeText, h, if_true]
  exact unpack_ok ic _ (fun c hc =>
    lookup_of_valid ic s h c (List.mem_of_mem_take hc) (dataRegion_not_pad s c hc)) 0 0 0

theorem decodeText_cases (ic : Bool) (s : List Byte) :
    (validateText ic s = true ∧ ∃ out, decodeText ic s = .ok out) ∨
    (validateText ic s = false ∧ decodeText ic s = .error .invalidFormat) := by
  cases h : validateText ic s with
  | true => exact .inl ⟨rfl, decodeText_of_valid ic s h⟩
  | false => exact .inr ⟨rfl, by simp [decodeText, h]⟩

/-- Everything a command can compute, with the bounds its output has (R184, R207, R11). -/
theorem commandResult_cases (s : State) :
    (s.op = .reserved ∧ commandResult s = .err .badCommand) ∨
    (s.op ≠ .reserved ∧ s.cfg.inCap < s.inLen.toNat ∧ commandResult s = .err .capacity) ∨
    (s.inLen.toNat ≤ s.cfg.inCap ∧
      ((s.op = .encode ∧ s.inLen.toNat = 0 ∧ commandResult s = .err .emptyInput) ∨
       (s.op = .encode ∧ 0 < s.inLen.toNat ∧ ∃ text, encodeText (commandInput s) = .ok text ∧
          text.length ≤ outCap s.cfg ∧ commandResult s = .ok text) ∨
       (s.op = .decode ∧ validateText s.ignoreCase (commandInput s) = false ∧
          commandResult s = .err .invalidFormat) ∨
       (s.op = .decode ∧ validateText s.ignoreCase (commandInput s) = true ∧
          ∃ out, decodeText s.ignoreCase (commandInput s) = .ok out ∧
            out.length ≤ outCap s.cfg ∧ commandResult s = .ok out) ∨
       (s.op = .validate ∧
          commandResult s = .verdict (validateText s.ignoreCase (commandInput s))))) := by
  have hlen := commandInput_length s
  cases ho : s.op with
  | reserved => exact .inl ⟨rfl, by simp [commandResult, ho, reservedResult]⟩
  | encode =>
    right
    by_cases hcap : s.cfg.inCap < s.inLen.toNat
    · exact .inl ⟨by simp, hcap, by simp [commandResult, ho, encodeResult, overCapacity, inputLength, hcap]⟩
    · refine .inr ⟨by omega, ?_⟩
      by_cases h0 : s.inLen.toNat = 0
      · refine .inl ⟨rfl, h0, ?_⟩
        have he : encodeText (commandInput s) = .error .emptyInput := by simp [encodeText, hlen, h0]
        simp [commandResult, ho, encodeResult, overCapacity, inputLength, hcap, he, resultOf]
      · have he : encodeText (commandInput s) = .ok (encodeBlocks (commandInput s)) := by
          simp only [encodeText, hlen, h0, if_false]
        refine .inr (.inl ⟨rfl, by omega, _, he, ?_, ?_⟩)
        · rw [encodeText_length _ _ he, hlen, outCap]; omega
        · simp [commandResult, ho, encodeResult, overCapacity, inputLength, hcap, he, resultOf]
  | decode =>
    right
    by_cases hcap : s.cfg.inCap < s.inLen.toNat
    · exact .inl ⟨by simp, hcap, by simp [commandResult, ho, decodeResult, overCapacity, inputLength, hcap]⟩
    · refine .inr ⟨by omega, .inr (.inr ?_)⟩
      rcases decodeText_cases s.ignoreCase (commandInput s) with ⟨hv, out, hd⟩ | ⟨hv, hd⟩
      · refine .inr (.inl ⟨rfl, hv, out, hd, ?_, ?_⟩)
        · have := decodeText_length _ _ _ hd
          have := firstPad_le (commandInput s)
          simp only [outCap]; omega
        · simp [commandResult, ho, decodeResult, overCapacity, inputLength, hcap, hd, resultOf]
      · refine .inl ⟨rfl, hv, ?_⟩
        simp [commandResult, ho, decodeResult, overCapacity, inputLength, hcap, hd, resultOf]
  | validate =>
    right
    by_cases hcap : s.cfg.inCap < s.inLen.toNat
    · exact .inl ⟨by simp, hcap, by simp [commandResult, ho, validateResult, overCapacity, inputLength, hcap]⟩
    · refine .inr ⟨by omega, .inr (.inr (.inr (.inr ⟨rfl, ?_⟩)))⟩
      simp [commandResult, ho, validateResult, overCapacity, inputLength, hcap]

theorem engineTurn_of_busy (s : State) (h : s.busy = true) :
    engineTurn s = commit (commandResult s) s := by simp [engineTurn, completeCommand, h]

theorem engineTurn_of_idle (s : State) (h : s.busy = false) : engineTurn s = s := by
  simp [engineTurn, h]

end Sys2Proof.Machine
end

