-- ==== Sys2Proof/Laws/PerInstr.lean ====
section
/-! SUPPORT. One statement for each command as syntax: its word matches its row of the opcode map (30_encoding.md
section 4) and no other bit is set. -/

namespace Sys2Proof.Laws

/-- The mask of a command's row (30_encoding.md section 4). -/
def rowMask : Instr → Word
  | .cfg _ _      => 0x00000100
  | .encode _     => 0x00000103
  | .decode _     => 0x00000103
  | .validate _   => 0x00000103
  | .reservedOp _ => 0x00000103

/-- The match of a command's row (30_encoding.md section 4). -/
def rowMatch : Instr → Word
  | .cfg _ _      => 0x00000000
  | .encode _     => 0x00000100
  | .decode _     => 0x00000101
  | .validate _   => 0x00000102
  | .reservedOp _ => 0x00000103

/-- A command is well formed, its word is in its row and canonical, and the opcode table's word decodes to
it. -/
def RowWord.Statement (i : Instr) : Prop :=
  i.wf = true ∧ encodeCommand i &&& rowMask i = rowMatch i ∧ canonicalWord (encodeCommand i) ∧
    decodeTableWord 32 (encodeCommand i).toNat = some i

theorem RowWord.cfg (op : Op) (ic : Bool) : RowWord.Statement (.cfg op ic) := by
  cases op <;> cases ic <;> exact ⟨rfl, by decide, by decide, by decide⟩

theorem RowWord.encode (ic : Bool) : RowWord.Statement (.encode ic) := by
  cases ic <;> exact ⟨rfl, by decide, by decide, by decide⟩

theorem RowWord.decode (ic : Bool) : RowWord.Statement (.decode ic) := by
  cases ic <;> exact ⟨rfl, by decide, by decide, by decide⟩

theorem RowWord.validate (ic : Bool) : RowWord.Statement (.validate ic) := by
  cases ic <;> exact ⟨rfl, by decide, by decide, by decide⟩

theorem RowWord.reservedOp (ic : Bool) : RowWord.Statement (.reservedOp ic) := by
  cases ic <;> exact ⟨rfl, by decide, by decide, by decide⟩

end Sys2Proof.Laws
end

