-- ==== Sys2Proof/Laws/Words.lean ====
section
/-! SUPPORT. The words of the block bit by bit: the command word, CTRL, STATUS and a field of a word; and a
START word's command. -/

namespace Sys2Proof.Machine

theorem opBits_cases (b : BitVec 2) : b = 0b00#2 ∨ b = 0b01#2 ∨ b = 0b10#2 ∨ b = 0b11#2 := by
  revert b; decide

@[simp] theorem ofBits_bits (o : Op) : Op.ofBits o.bits = o := by cases o <;> rfl

@[simp] theorem bits_ofBits (b : BitVec 2) : (Op.ofBits b).bits = b := by revert b; decide

theorem commandWord_getLsbD (start : Bool) (op : Op) (ic : Bool) (j : Nat) :
    (commandWord start op ic).getLsbD j =
      if j < 2 then op.bits.getLsbD j else if j = 2 then ic else if j = 8 then start else false := by
  simp only [commandWord, BitVec.getLsbD_append, BitVec.getLsbD_ofBool, BitVec.getLsbD_zero]
  repeat' split
  all_goals first | rfl | omega | (subst_vars; simp)

theorem ctrlWord_getLsbD (s : State) (j : Nat) :
    (ctrlWord s).getLsbD j =
      if j < 2 then s.op.bits.getLsbD j else if j = 2 then s.ignoreCase else false := by
  simp only [ctrlWord, BitVec.getLsbD_append, BitVec.getLsbD_ofBool, BitVec.getLsbD_zero]
  repeat' split
  all_goals first | rfl | omega | (subst_vars; simp)

theorem statusWord_getLsbD (s : State) (j : Nat) :
    (statusWord s).getLsbD j =
      if j = 0 then s.busy else if j = 1 then s.done else if j = 2 then s.verdict
      else if j < 4 then false else s.result.getLsbD (j - 4) := by
  simp only [statusWord, BitVec.getLsbD_append, BitVec.getLsbD_ofBool, BitVec.getLsbD_zero]
  repeat' split
  all_goals first
    | rfl
    | omega
    | (subst_vars; simp; done)
    | exact (BitVec.getLsbD_of_ge _ _ (by omega)).symm

/-- Bits [hi:lo] of a word, in bits [hi-lo:0], with zeros above (R15). -/
theorem wordField_getLsbD (hi lo : Nat) (v : Word) (j : Nat) :
    (wordField hi lo v).getLsbD j = (decide (j < hi + 1 - lo) && v.getLsbD (lo + j)) := by
  simp only [wordField, BitVec.getLsbD_and, BitVec.getLsbD_ushiftRight, BitVec.getLsbD_ofNat,
    Nat.testBit_two_pow_sub_one]
  by_cases h : j < 32
  · simp [h, Bool.and_comm]
  · simp [h, BitVec.getLsbD_of_ge v (lo + j) (by omega)]

/-- The command a START word carries, at the write that carries it (R181). -/
theorem exec_of_start (w : Word) (s : State) (h : w.getLsbD 8 = true) :
    exec (decodeCommand w) s =
      .next (startCommand (Op.ofBits (w.extractLsb' 0 2)) (w.getLsbD 2) s) := by
  simp only [decodeCommand, h, if_true]
  rcases opBits_cases (w.extractLsb' 0 2) with hb | hb | hb | hb <;> rw [hb] <;> rfl

theorem exec_of_cfg (w : Word) (s : State) (h : w.getLsbD 8 = false) :
    exec (decodeCommand w) s = execCfg (Op.ofBits (w.extractLsb' 0 2)) (w.getLsbD 2) s := by
  simp only [decodeCommand, h]; rfl

end Sys2Proof.Machine
end

