-- ==== Sys2Proof/Tests/Slice0.lean ====
section
/-! SUPPORT. Tests: ill-formed terms the checks refuse, words written out from the spec's encodings, one step of
each command, vectors of spec/95_test_vectors.md, and a witness for the hypotheses of each obligation. -/

namespace Sys2Proof.Tests

open Sys2Proof Sys2Proof.Machine

/-! ## Helpers -/

/-- The characters of a text as bytes. -/
def txt (s : String) : List Byte := s.toList.map fun c => BitVec.ofNat 8 c.toNat

/-- An instance after reset with IN_CAP = 64, as in 95_test_vectors.md section 2.4. -/
def bench : State := { State.reset with cfg := ⟨0, 64⟩ }

/-- The same with bytes in IN and IN_LEN set. -/
def loaded (bytes : List Byte) : State :=
  { bench with inBuf := writeBytes [] 0 bytes, inLen := BitVec.ofNat 32 bytes.length }

/-- The same with an IN_LEN alone. -/
def sized (n : Nat) : State := { bench with inLen := BitVec.ofNat 32 n }

/-- A state with a command pending on it. -/
def pending (op : Op) (ic : Bool) (s : State) : State := acceptCommand op ic s

/-- A check of the state a step gives. -/
def holds (o : Host.Outcome State Fault Refusal) (p : State → Bool) : Bool :=
  match o with
  | .next t => p t
  | _ => false

/-- A check of the data an access gives. -/
def reads (o : Host.Outcome (State × Word) Fault Refusal) (w : Word) : Bool :=
  match o with
  | .next (_, d) => d == w
  | _ => false

/-- Whether an access is a bus error at an offset. -/
def stops (o : Host.Outcome (State × Word) Fault Refusal) (off : Nat) : Bool :=
  match o with
  | .fault (.busError a _) => a == off
  | _ => false

/-- The bytes a codec function returns, if it returns any. -/
def bytesOf : Except CommandError (List Byte) → Option (List Byte)
  | .ok b => some b
  | .error _ => none

/-! ## Well-formedness smoke tests -/

theorem test_wf_inCap_zero : ¬ Config.wf ⟨0, 0⟩ := by decide
theorem test_wf_inCap_above : ¬ Config.wf ⟨0, 655361⟩ := by decide
theorem test_wf_inCap_bounds : Config.wf ⟨0, 1⟩ ∧ Config.wf ⟨0, 655360⟩ := by decide
theorem test_wf_word_bit3 : ¬ canonicalWord 0x00000008 := by decide
theorem test_wf_word_bit9 : ¬ canonicalWord 0x00000300 := by decide
theorem test_wf_word_bits : canonicalWord 0x00000107 := by decide
theorem test_wf_request_size : ¬ Request.wf ⟨0x00C, 2, true, 0⟩ := by decide
theorem test_wf_request_offset : ¬ Request.wf ⟨0x300000, 4, false, 0⟩ := by decide
theorem test_wf_request_data : ¬ Request.wf ⟨0x100000, 1, true, 0x100⟩ := by decide
theorem test_wf_request_last : Request.wf ⟨0x2FFFFC, 4, false, 0⟩ ∧ Request.wf ⟨0x100000, 1, true, 0xFF⟩ := by
  decide
theorem test_wf_program_unbound : programWf [] [.wr 0x100000 4 (.name 0), .rd 0x200000 4 0] = false := by decide
theorem test_wf_program_bound : programWf [] [.rd 0x200000 4 0, .wr 0x100000 4 (.name 0)] = true := by decide

/-! ## Decoding: words written out bit by bit from R81 -/

theorem test_word_cfg : decodeCommand (0b0000000000000000000000000_0000_110#32) = .cfg .validate true := by decide
theorem test_word_encode : decodeCommand (0b00000000000000000000000_1_00000_0_00#32) = .encode false := by decide
theorem test_word_decode : decodeCommand (0b00000000000000000000000_1_00000_1_01#32) = .decode true := by decide
theorem test_word_validate : decodeCommand (0b00000000000000000000000_1_00000_0_10#32) = .validate false := by
  decide
theorem test_word_reservedOp : decodeCommand (0b00000000000000000000000_1_00000_1_11#32) = .reservedOp true := by
  decide
theorem test_word_cfg_junk : decodeCommand (0b11111111111111111111111_0_11111_0_01#32) = .cfg .decode false := by
  decide
theorem test_word_validate_junk :
    decodeCommand (0b11111111111111111111111_1_11111_1_10#32) = .validate true := by decide
theorem test_tableWord : decodeTableWord 32 0x105 = some (.decode true) ∧ decodeTableWord 33 0x105 = none ∧
    decodeTableWord 8 0x3 = some (.cfg .reserved false) := by decide
theorem test_placed_word_runs : holds (step (bench.withFetchWord 32 0x106)) (fun t =>
    t.busy && t.op == .validate && t.ignoreCase && t.program == [] && t.schedule == []) = true := by decide

/-! ## One step of each command (95_test_vectors.md section 2.4) -/

/-- C2, C3: CFG is read back and starts nothing. -/
theorem test_cfg_stores : holds (step (bench.withFetchWord 32 0xFFFFFEFF)) (fun t =>
    ctrlWord t == 0x7 && statusWord t == 0) = true := by decide
theorem test_cfg_busy : holds (exec (.cfg .decode false) (pending .encode true bench)) (fun t =>
    ctrlWord t == 0x4 && statusWord t == 1) = true := by decide

/-- C15: acceptance clears DONE, VERDICT and RESULT. -/
theorem test_encode_accepts : holds (exec (.encode false) { bench with done := true, verdict := true })
    (fun t => statusWord t == 1 && ctrlWord t == 0) = true := by decide
theorem test_decode_dropped_while_busy : holds (exec (.decode true) (pending .encode false bench))
    (fun t => ctrlWord t == 0 && statusWord t == 1) = true := by decide

/-- Program A (S2): the completion of ENCODE of "AB". -/
theorem test_encode_completes : engineTurn (pending .encode false (loaded (txt "AB"))) =
    { loaded (txt "AB") with
        op := .encode, ignoreCase := false, done := true, outLen := 8,
        outBuf := writeBytes [] 0 (txt "IFBA====") } := by decide

/-- Program B: DECODE with and without IGNORE_CASE. -/
theorem test_decode_completes :
    statusWord (engineTurn (pending .decode true (loaded (txt "ifbegra=")))) = 0x02 ∧
    (engineTurn (pending .decode true (loaded (txt "ifbegra=")))).outBuf = writeBytes [] 0 (txt "ABCD") ∧
    statusWord (engineTurn (pending .decode false (loaded (txt "ifbegra=")))) = 0x22 := by decide

/-- Program C: VALIDATE before and after the repair. -/
theorem test_validate_completes :
    statusWord (engineTurn (pending .validate true (loaded (txt "IE====A=")))) = 0x02 ∧
    statusWord (engineTurn (pending .validate true (loaded (txt "IE======")))) = 0x06 := by decide

/-- Program E and C7: the error codes, BAD_COMMAND before CAPACITY. -/
theorem test_error_codes :
    statusWord (engineTurn (pending .encode false bench)) = 0x12 ∧
    statusWord (engineTurn (pending .decode true bench)) = 0x22 ∧
    statusWord (engineTurn (pending .validate true (sized 65))) = 0x52 ∧
    statusWord (engineTurn (pending .reserved false (sized 65))) = 0x42 := by decide

/-! ## Accesses (95_test_vectors.md section 2.4) -/

/-- C1. -/
theorem test_registers_after_reset :
    reads (busAccess ⟨0x000, 4, false, 0⟩ bench) 0x0B320007 = true ∧
    reads (busAccess ⟨0x004, 4, false, 0⟩ bench) 0x4 = true ∧
    reads (busAccess ⟨0x01C, 4, false, 0⟩ bench) 0x40 = true ∧
    reads (busAccess ⟨0x020, 4, false, 0⟩ bench) 0x68 = true := by decide

/-- C13, C14. -/
theorem test_byte_lanes :
    (storeIn .word 0 0x44434241 bench).inBuf = [(0, 0x41), (1, 0x42), (2, 0x43), (3, 0x44)] ∧
    reads (busAccess ⟨0x100000, 4, false, 0⟩ (storeIn .byte 2 0x5A (storeIn .word 0 0x44434241 bench)))
      0x445A4241 = true ∧
    reads (busAccess ⟨0x100003, 1, false, 0⟩ (storeIn .word 0 0x44434241 bench)) 0x44 = true := by decide

/-- B1 to B9. -/
theorem test_bus_errors :
    stops (busAccess ⟨0x004, 1, false, 0⟩ bench) 0x004 = true ∧
    stops (busAccess ⟨0x002, 4, false, 0⟩ bench) 0x002 = true ∧
    stops (busAccess ⟨0x024, 4, false, 0⟩ bench) 0x024 = true ∧
    stops (busAccess ⟨0x0FFFFC, 4, true, 0⟩ bench) 0x0FFFFC = true ∧
    stops (busAccess ⟨0x100001, 4, false, 0⟩ bench) 0x100001 = true ∧
    stops (busAccess ⟨0x100040, 1, false, 0⟩ bench) 0x100040 = true ∧
    stops (busAccess ⟨0x200000, 1, true, 0⟩ bench) 0x200000 = true ∧
    stops (busAccess ⟨0x200068, 4, false, 0⟩ bench) 0x200068 = true ∧
    stops (busAccess ⟨0x00C, 2, true, 0⟩ bench) 0x00C = true := by decide

/-- B10, and a 4-byte access outside the block (U10). -/
theorem test_bus_error_past_capacity :
    stops (busAccess ⟨0x100004, 4, false, 0⟩ { bench with cfg := ⟨0, 6⟩ }) 0x100004 = true ∧
    stops (busAccess ⟨0x300000, 4, false, 0⟩ bench) 0x300000 = true := by decide

/-- The last legal accesses of section 2.4. -/
theorem test_last_accesses :
    decodeRequest bench.cfg ⟨0x10003C, 4, false, 0⟩ = .ok (.readIn .word 60) ∧
    decodeRequest bench.cfg ⟨0x10003F, 1, false, 0⟩ = .ok (.readIn .byte 63) ∧
    decodeRequest bench.cfg ⟨0x200064, 4, false, 0⟩ = .ok (.readOut .word 100) := ⟨rfl, rfl, rfl⟩

/-- R86, R87: the pseudo-instructions as bus requests. -/
theorem test_pseudo_instructions :
    hostCommand (.encode false) = .wr 0x004 4 (.num 0x100) ∧
    hostCommand (.decode true) = .wr 0x004 4 (.num 0x105) ∧
    hostWait = .poll 0x008 0x2 0x2 ∧ hostResult 7 = .rdField 0x008 7 4 7 ∧
    hostLoadIn [0x41, 0x42] =
      [.wr 0x100000 1 (.num 0x41), .wr 0x100001 1 (.num 0x42), .wr 0x00C 4 (.num 2)] ∧
    hostLoadIn32 [0x3D3D4549, 0x3D413D3D] 8 =
      [.wr 0x100000 4 (.num 0x3D3D4549), .wr 0x100004 4 (.num 0x3D413D3D), .wr 0x00C 4 (.num 8)] ∧
    wordField 7 4 0x00000052 = 5 := by decide

/-! ## Codec vectors (95_test_vectors.md sections 1 and 2) -/

/-- S1, S3, S4, S5. -/
theorem test_encode_vectors :
    bytesOf (encodeText (txt "A")) = some (txt "IE======") ∧
    bytesOf (encodeText (txt "ABC")) = some (txt "IFBEG===") ∧
    bytesOf (encodeText (txt "ABCD")) = some (txt "IFBEGRA=") ∧
    bytesOf (encodeText (txt "ABCDE")) = some (txt "IFBEGRCF") := by decide

/-- S6. -/
theorem test_encode_long : bytesOf (encodeText (txt "ABCDE.01234_FGHIJ-56789")) =
    some (txt "IFBEGRCFFYYDCMRTGRPUMR2IJFFC2NJWG44DS===") := by decide

/-- E2, E3, E4, E9, E14, E17. -/
theorem test_encode_bits :
    bytesOf (encodeText [0xFF]) = some (txt "74======") ∧
    bytesOf (encodeText [0x80]) = some (txt "QA======") ∧
    bytesOf (encodeText [0x01]) = some (txt "AE======") ∧
    bytesOf (encodeText [0xFF, 0xFF]) = some (txt "777Q====") ∧
    bytesOf (encodeText [0x84, 0x21, 0x08, 0x42, 0x10]) = some (txt "QQQQQQQQ") ∧
    bytesOf (encodeText [0, 1, 2, 3, 4, 5, 6, 7, 8, 9, 0x10]) = some (txt "AAAQEAYEAUDAOCAJCA======") := by
  decide

/-- D4, D8, D10, D15, D19, D21. -/
theorem test_decode_vectors :
    bytesOf (decodeText true (txt "iFbEgRcF")) = some (txt "ABCDE") ∧
    bytesOf (decodeText false (txt "IF======")) = some [0x41] ∧
    bytesOf (decodeText false (txt "IFBEGRC=")) = some (txt "ABCD") ∧
    bytesOf (decodeText true (txt "77777777")) = some [0xFF, 0xFF, 0xFF, 0xFF, 0xFF] ∧
    bytesOf (decodeText false (txt "MZXW6YTBOI======")) = some (txt "foobar") ∧
    bytesOf (decodeText false (txt "22222222")) = some [0xD6, 0xB5, 0xAD, 0x6B, 0x5A] := by decide

/-- S8 to S16: every one is rejected, with both values of ic. -/
theorem test_rejected_texts :
    (["", "ABCD", "=IE=====", "==ABCDEF", "I_======", "IE====A=", "IFBEGR==", "IFB=====", "I======="].all
      fun s => !validateText true (txt s) && !validateText false (txt s)) = true := by decide

/-- V1 to V3, V22, V23, V24. -/
theorem test_accepted_texts :
    (["IFBEGRCF", "IE======", "AAAA====", "AAAAA===", "AAAAAAA=", "IFBEGRCFIE======"].all
      fun s => validateText true (txt s) && validateText false (txt s)) = true ∧
    validateText true (txt "ifbegrcf") = true ∧ validateText false (txt "ifbegrcf") = false := by decide

/-- S10 and V17: which checks reject ("all checks" columns). -/
theorem test_which_checks :
    ([rejectsBlank, rejectsLength, rejectsEarlyPad, rejectsCharacter true, rejectsInnerPad, rejectsPadCount].map
      fun f => f (txt "=IE=====")) = [false, false, true, false, true, true] ∧
    ([rejectsBlank, rejectsLength, rejectsEarlyPad, rejectsCharacter true, rejectsInnerPad, rejectsPadCount].map
      fun f => f (txt "IE===== ")) = [false, false, false, true, true, true] := by decide

/-- V15, V16: bytes from 0x80 on are neither members nor folded. -/
theorem test_high_bytes :
    validateText true (0x80#8 :: txt "E======") = false ∧ validateText true (0xE9#8 :: txt "E======") = false ∧
    fold 0xE9 = 0xE9 ∧ fold 0x7A = 0x5A ∧ fold 0x60 = 0x60 ∧ fold 0x7B = 0x7B := by decide

/-- The worked accumulator trace of section 2.2 ("IFBA"). -/
theorem test_accumulator_trace :
    accPush 0 8 = 8 ∧ accTop (accPush 8 5) 10 = 0x41 ∧ (accPush 8 5 &&& accMask 2) = 1 ∧
    accPush 1 1 = 33 ∧ accTop (accPush 33 0) 12 = 0x42 ∧ (accPush 33 0 &&& accMask 4) = 0 := by decide

/-! ## Witnesses: for each statement, states and operands that meet its hypotheses, at the bounds of each clause -/

/-- A host with a word to write to CTRL, scheduled first. -/
def hosted (ops : List HostOp) (turns : List Turn) (s : State) : State := { s with program := ops, schedule := turns }

theorem bench_wf : bench.cfg.wf := by decide

theorem bench_inv : State.Inv bench := by constructor <;> decide

theorem pending_inv : State.Inv (pending .encode true bench) := by constructor <;> decide

theorem witness_WordsDecodeByStartAndOp :
    (0x00000006#32).getLsbD 8 = false ∧ (0x00000100#32).getLsbD 8 = true ∧
    (0x00000100#32).extractLsb' 0 2 = 0b00#2 ∧ (0x00000101#32).extractLsb' 0 2 = 0b01#2 ∧
    (0x00000102#32).extractLsb' 0 2 = 0b10#2 ∧ (0xFFFFFFFF#32).extractLsb' 0 2 = 0b11#2 ∧
    (0xFFFFFFFF#32).getLsbD 8 = true := by decide

theorem witness_DecodeOfEncodeIsTheCommand :
    Instr.wf (.cfg .reserved true) = true ∧ Instr.wf (.reservedOp false) = true := by decide

theorem witness_StepRunsTheDecodedCommand :
    (hosted [.wr 0x004 4 (.num 0x105), .poll 8 2 2] [.host, .engine] bench).program =
      .wr 0x004 4 (.num 0x105) :: [.poll 8 2 2] ∧
    (hosted [.wr 0x004 4 (.num 0x105)] [.host, .engine] bench).schedule = .host :: [.engine] ∧
    (hosted [.wr 0x004 4 (.name 0)] [] bench).program = .wr 0x004 4 (.name 0) :: [] ∧
    (hosted [.wr 0x004 4 (.name 0)] [] bench).schedule = [] ∧
    (hosted [.wr 0x004 4 (.name 0)] [] bench).busy = false ∧ 0xFFFFFFFF < 2 ^ 32 := by decide

/-- A write of IN_LEN scheduled, one with nothing scheduled, one that is a bus error, and a host with no line. -/
theorem witness_StepPerformsTheHostsAccess :
    (hosted [.wr 0x00C 4 (.num 9)] [.host] bench).program = .wr 0x00C 4 (.num 9) :: [] ∧
    (hosted [.wr 0x00C 4 (.num 9)] [.host] bench).schedule = .host :: [] ∧
    (∃ t d, busAccess ⟨0x00C, 4, true, 9⟩
      { hosted [.wr 0x00C 4 (.num 9)] [.host] bench with program := [], schedule := [] } = .next (t, d)) ∧
    (hosted [.rd 0x10003F 1 7] [] bench).schedule = [] ∧ (hosted [.rd 0x10003F 1 7] [] bench).busy = false ∧
    (∃ off cause, busAccess ⟨0x200000, 4, true, 0⟩
      { hosted [.wr 0x200000 4 (.num 0)] [.host] bench with program := [], schedule := [] } =
        .fault (.busError off cause)) ∧
    (hosted [] [.host] bench).program = [] ∧ (hosted [] [.host] bench).schedule = .host :: [] :=
  ⟨rfl, rfl, ⟨_, _, rfl⟩, rfl, rfl, ⟨_, _, rfl⟩, rfl, rfl⟩

theorem witness_EngineCompletesExactlyWhenBusy :
    (hosted [] [.engine] (pending .decode false bench)).schedule = .engine :: [] ∧
    (hosted [] [.engine] (pending .decode false bench)).busy = true ∧
    (hosted [] [.engine] bench).schedule = .engine :: [] ∧ (hosted [] [.engine] bench).busy = false ∧
    (pending .decode false bench).schedule = [] := by decide

theorem witness_CfgStoresOpAndIgnoreCase :
    (0xFFFFFEFF#32).getLsbD 8 = false ∧ bench.busy = false ∧ (pending .encode true bench).busy = true := by decide

theorem witness_StartIsAcceptedInOneStep :
    (0x00000100#32).getLsbD 8 = true ∧ ({ bench with done := true } : State).busy = false ∧
    (pending .encode true bench).busy = true := by decide

theorem witness_CtrlWriteIsIgnoredWhileBusy :
    (pending .validate true bench).busy = true ∧ bench.busy = false := by decide

theorem witness_CommandWriteFrame : Instr.cfg .reserved true = .cfg .reserved true := rfl

/-- ENCODE at IN_LEN = 0, 1, IN_CAP and IN_CAP + 1. -/
theorem witness_EncodeRunsToItsText :
    (sized 0).busy = false ∧ (sized 0).inLen.toNat = 0 ∧
    (0 < (sized 1).inLen.toNat ∧ (sized 1).inLen.toNat ≤ (sized 1).cfg.inCap) ∧
    (0 < (sized 64).inLen.toNat ∧ (sized 64).inLen.toNat ≤ (sized 64).cfg.inCap) ∧
    (sized 64).cfg.wf ∧ (sized 65).cfg.inCap < (sized 65).inLen.toNat := by decide

/-- DECODE at IN_LEN = 0, IN_CAP and IN_CAP + 1, and of a text that validates and one that does not. -/
theorem witness_DecodeRunsToItsBytes :
    (sized 0).inLen.toNat = 0 ∧ (sized 65).cfg.inCap < (sized 65).inLen.toNat ∧
    (sized 64).inLen.toNat ≤ (sized 64).cfg.inCap ∧
    (loaded (txt "ie======")).busy = false ∧
    (loaded (txt "ie======")).inLen.toNat ≤ (loaded (txt "ie======")).cfg.inCap ∧
    validateText true ((List.range (loaded (txt "ie======")).inLen.toNat).map
      (inByte (loaded (txt "ie======")))) = true ∧
    validateText false ((List.range (loaded (txt "ie======")).inLen.toNat).map
      (inByte (loaded (txt "ie======")))) = false ∧ (loaded (txt "ie======")).cfg.wf := by decide

theorem witness_ValidateRunsToItsVerdict :
    (sized 64).busy = false ∧ (sized 64).inLen.toNat ≤ (sized 64).cfg.inCap ∧
    (sized 65).cfg.inCap < (sized 65).inLen.toNat := by decide

theorem witness_ReservedOpReportsBadCommand :
    0x00000103#32 &&& 0x103#32 = 0x103#32 ∧ 0xFFFFFFFF#32 &&& 0x103#32 = 0x103#32 ∧ (sized 65).busy = false := by
  decide

theorem witness_SuccessCommitWritesResultAndOut :
    (List.replicate 104 0x41#8).length ≤ outCap bench.cfg ∧ bench.cfg.wf := by decide

/-- Each of the four codes that occur. -/
theorem witness_ErrorCommitWritesCodeAndRecord :
    [CommandError.emptyInput, .invalidFormat, .badCommand, .capacity].all (fun e =>
      decide (e = .emptyInput ∨ e = .invalidFormat ∨ e = .badCommand ∨ e = .capacity)) = true := by decide

theorem witness_CompletionReportsTheFirstError :
    (pending .reserved true (sized 65)).busy = true ∧ (pending .reserved true (sized 65)).op = .reserved ∧
    (pending .encode true (sized 65)).op ≠ .reserved ∧
    (pending .encode true (sized 65)).cfg.inCap < (pending .encode true (sized 65)).inLen.toNat ∧
    (pending .encode true (sized 64)).inLen.toNat ≤ (pending .encode true (sized 64)).cfg.inCap ∧
    (pending .encode true (sized 64)).op = .encode ∧ (pending .decode true (sized 0)).op = .decode ∧
    (pending .decode true (sized 0)).inLen = 0 ∧ (pending .validate true (sized 0)).op = .validate ∧
    (engineTurn (pending .decode true (sized 0))).result ≠ 0 := by decide

/-- Two states that differ in OUT, the flags and IN beyond IN_LEN. -/
theorem witness_ResultDependsOnOperandsAlone :
    ({ loaded [0x41] with inBuf := [(0, 0x41), (1, 0x42)], outBuf := [(3, 0)], done := true } : State).cfg.inCap =
      (loaded [0x41]).cfg.inCap ∧
    ({ loaded [0x41] with inBuf := [(0, 0x41), (1, 0x42)], outBuf := [(3, 0)], done := true } : State).inLen =
      (loaded [0x41]).inLen ∧
    ∀ i, i < 1 → inByte { loaded [0x41] with inBuf := [(0, 0x41), (1, 0x42)], outBuf := [(3, 0)], done := true } i =
      inByte (loaded [0x41]) i := by decide

theorem witness_OperandsAreFrozenWhileBusy :
    (pending .encode true bench).busy = true ∧ (pending .encode true bench).cfg.wf ∧
    legalAccess (pending .encode true bench).cfg ⟨0x10003C, 4, true, 0⟩ ∧
    ∃ t, step (hosted [.wr 0x00C 4 (.num 9)] [.host] (pending .encode true bench)) = .next t ∧ t.busy = true :=
  ⟨rfl, by decide, .inr (.inl ⟨by decide, .inr ⟨rfl, by decide, by decide⟩⟩), _, rfl, rfl⟩

theorem witness_StatusReadsItsFieldsAndZeros : 8 ≤ 8 ∧ 8 ≤ 31 := by decide

theorem witness_CtrlReadsItsFieldsAndZeros : 3 ≤ 3 ∧ 3 ≤ 8 ∧ 3 ≤ 31 := by decide

theorem witness_ReadOnlyRegistersIgnoreWrites : (0x020 = 0x000 ∨ 0x020 = 0x020) ∧
    (0x24 ≤ 0x24 ∧ 0x24 < 0x100000) ∧ (0x24 ≤ 0xFFFFF ∧ 0xFFFFF < 0x100000) := by decide

theorem witness_InLenHoldsEveryValue :
    bench.busy = false ∧ (pending .encode true bench).busy = true ∧ Op.validate ≠ .reserved ∧
    bench.cfg.inCap < (0xFFFFFFFF#32).toNat ∧ bench.cfg.inCap < (65#32).toNat ∧
    ∃ t, exec (.encode true) (sized 5) = .next t := ⟨rfl, rfl, by decide, by decide, by decide, _, rfl⟩

/-- An access on each side of the line: the last of IN, and one past it. -/
theorem witness_RejectedAccessesAreBusErrors :
    bench.cfg.wf ∧ legalAccess bench.cfg ⟨0x10003F, 1, true, 0⟩ ∧ ¬ legalAccess bench.cfg ⟨0x100040, 1, true, 0⟩ :=
  ⟨by decide, .inr (.inl ⟨by decide, .inl ⟨rfl, by decide⟩⟩), by simp [legalAccess, windowAccess, bench]⟩

theorem witness_BusErrorStopsTheRun :
    (hosted [.wr 0x200000 4 (.num 0)] [.host] bench).cfg.wf ∧
    (hosted [.wr 0x200000 4 (.num 0)] [.host] bench).program = .wr 0x200000 4 (.num 0) :: [] ∧
    (hosted [.wr 0x200000 4 (.num 0)] [.host] bench).schedule = .host :: [] ∧
    ¬ legalAccess bench.cfg (hostRequest bench (.wr 0x200000 4 (.num 0))) :=
  ⟨by decide, rfl, rfl, by simp [legalAccess, windowAccess, bench, hostRequest]⟩

theorem witness_InWindowAccesses :
    bench.cfg.wf ∧ 63 < bench.cfg.inCap ∧ bench.busy = false ∧ (60 % 4 = 0 ∧ 60 + 3 < bench.cfg.inCap) ∧
    (61 < 0x100000 ∧ 61 % 4 ≠ 0) ∧ (64 < 0x100000 ∧ bench.cfg.inCap ≤ 64 + 3) ∧
    (pending .encode true bench).busy = true ∧ windowAccess (pending .encode true bench).cfg.inCap 60 4 :=
  ⟨by decide, by decide, rfl, by decide, by decide, by decide, rfl, .inr ⟨rfl, by decide, by decide⟩⟩

theorem witness_OutWindowAccesses :
    bench.cfg.wf ∧ 0xFFFFF < 0x100000 ∧ ¬ windowAccess (outCap bench.cfg) 104 1 ∧
    ¬ windowAccess (outCap bench.cfg) 101 4 ∧ bench.busy = false ∧ 103 < outCap bench.cfg ∧
    (100 % 4 = 0 ∧ 100 + 3 < outCap bench.cfg) ∧ (pending .encode true bench).busy = true :=
  ⟨by decide, by decide, by simp [windowAccess, outCap, bench], by simp [windowAccess], rfl, by decide, by decide,
    rfl⟩

theorem witness_ByteLanesAreLittleEndian :
    bench.cfg.wf ∧ bench.busy = false ∧ 60 % 4 = 0 ∧ 3 < 4 ∧ 60 + 3 < bench.cfg.inCap ∧
    60 + 3 < outCap bench.cfg := by decide

/-- A read of OUT while busy, and writes of each kind of location: CTRL without START, IN_LEN, a read-only
register, and the first and last bytes of IN. -/
theorem witness_ReadsHaveNoSideEffects :
    (∃ t d, busAccess ⟨0x200000, 1, false, 0⟩ (pending .encode true bench) = .next (t, d)) ∧
    (∃ t d, busAccess ⟨0x10003C, 4, false, 0⟩ bench = .next (t, d)) ∧
    (∃ t d, busAccess ⟨0x100000, 1, true, 0⟩ (pending .encode true bench) = .next (t, d)) ∧
    (∃ t d, busAccess ⟨0x004, 4, true, 0xFFFFFEFF⟩ bench = .next (t, d)) ∧
    (∃ t d, busAccess ⟨0x00C, 4, true, 9⟩ bench = .next (t, d)) ∧
    (∃ t d, busAccess ⟨0x020, 4, true, 9⟩ bench = .next (t, d)) ∧
    (∃ t d, busAccess ⟨0x100000, 1, true, 0⟩ bench = .next (t, d)) ∧
    (∃ t d, busAccess ⟨0x10003C, 4, true, 0⟩ bench = .next (t, d)) ∧
    bench.busy = false ∧ (pending .encode true bench).busy = true ∧ (0xFFFFFEFF#32).getLsbD 8 = false :=
  ⟨⟨_, _, rfl⟩, ⟨_, _, rfl⟩, ⟨_, _, rfl⟩, ⟨_, _, rfl⟩, ⟨_, _, rfl⟩, ⟨_, _, rfl⟩, ⟨_, _, rfl⟩, ⟨_, _, rfl⟩,
    rfl, rfl, by decide⟩

theorem witness_WaitPollsUntilDone :
    (hosted [.poll 0x008 0x2 0x2] [.host] bench).program = .poll 0x008 0x2 0x2 :: [] ∧
    (hosted [.poll 0x008 0x2 0x2] [.host] bench).schedule = .host :: [] ∧
    (hosted [.poll 0x008 0x2 0x2] [.host] bench).done = false ∧
    (hosted [.poll 0x008 0x2 0x2] [.host] { bench with done := true }).done = true := by decide

/-- A 4-byte read, a 1-byte read of IN's last byte, and RESULT of R87. -/
theorem witness_ReadBindsItsName :
    (hosted [.rd 0x000 4 7] [.host] bench).schedule = .host :: [] ∧
    (hosted [.rd 0x000 4 7] [.host] bench).program = .rd 0x000 4 7 :: [] ∧
    busAccess ⟨0x000, 4, false, 0⟩ { hosted [.rd 0x000 4 7] [.host] bench with program := [], schedule := [] } =
      .next ({ hosted [.rd 0x000 4 7] [.host] bench with program := [], schedule := [] }, 0x0B320007) ∧
    (hosted [.rd 0x10003F 1 7] [.host] bench).program = .rd 0x10003F 1 7 :: [] ∧
    (∃ t d, busAccess ⟨0x10003F, 1, false, 0⟩
      { hosted [.rd 0x10003F 1 7] [.host] bench with program := [], schedule := [] } = .next (t, d)) ∧
    (hosted [hostResult 7] [.host] bench).program = .rdField 0x008 7 4 7 :: [] ∧
    (∃ t d, busAccess ⟨0x008, 4, false, 0⟩
      { hosted [hostResult 7] [.host] bench with program := [], schedule := [] } = .next (t, d)) ∧ 8 ≠ 7 :=
  ⟨rfl, rfl, rfl, rfl, ⟨_, _, rfl⟩, rfl, ⟨_, _, rfl⟩, by decide⟩

/-- RESULT of R87 after the capacity error of C5: STATUS = 0x52 binds 5. -/
theorem test_result_binds_code : holds (step (hosted [hostResult 7] [.host]
    { bench with done := true, result := 5 })) (fun t => t.names == [(7, 5)] && t.program == []) = true := by decide

theorem witness_AddressesAreOffsetsFromBase :
    0 < 0x300000 ∧ 0x2FFFFF < 0x300000 ∧ 0x300000 ≤ 0x300000 ∧ 0xFFF < (⟨0x1000, 64⟩ : Config).base := by decide

theorem witness_AlphabetAndItsInverse :
    inv 0x41 = some 0 ∧ inv 0x37 = some 31 ∧ 0x80 ≤ (0x80#8).toNat ∧ 0x80 ≤ (0xFF#8).toNat := by decide

theorem witness_LookupFoldsOnlyLetters :
    (0x61 ≤ (0x61#8).toNat ∧ (0x61#8).toNat ≤ 0x7A) ∧ (0x61 ≤ (0x7A#8).toNat ∧ (0x7A#8).toNat ≤ 0x7A) ∧
    ¬(0x61 ≤ (0x60#8).toNat ∧ (0x60#8).toNat ≤ 0x7A) ∧ ¬(0x61 ≤ (0x7B#8).toNat ∧ (0x7B#8).toNat ≤ 0x7A) := by
  decide

theorem witness_EncodedLength : [0x41#8] ≠ [] := by decide

/-- The last block of 6 bytes, at its first padding position. -/
theorem witness_EncodedSymbolIsItsBlockField :
    encodeText (txt "foobar") = .ok (txt "MZXW6YTBOI======") ∧ 5 * 1 < (txt "foobar").length ∧ 2 < 8 :=
  ⟨by rfl, by decide, by decide⟩

theorem witness_EncodedPaddingIsLegal : encodeText (txt "A") = .ok (txt "IE======") := by rfl

theorem witness_OutputNeverOverflows :
    encodeText (txt "ABCDE") = .ok (txt "IFBEGRCF") ∧ (txt "ABCDE").length = (⟨0, 5⟩ : Config).inCap ∧
    decodeText true (txt "IFBEGRCF") = .ok (txt "ABCDE") ∧ (txt "IFBEGRCF").length ≤ (⟨0, 8⟩ : Config).inCap ∧
    (⟨0, 655360⟩ : Config).wf := ⟨by rfl, by decide, by rfl, by decide, by decide⟩

theorem witness_PaddingChecksByIndices :
    0x3D#8 ∉ txt "IFBEGRCF" ∧ (txt "IE======")[2]? = some 0x3D#8 ∧ (txt "IE======")[7]? = some 0x3D#8 ∧
    (∀ i, (txt "IE======")[i]? = some 0x3D#8 → 2 ≤ i ∧ i ≤ 7) ∧ rejectsInnerPad (txt "IE======") = false := by
  refine ⟨by decide, by decide, by decide, fun i hi => ?_, by decide⟩
  have hlt : i < 8 := by
    have := (List.getElem?_eq_some_iff.1 hi).1
    exact this
  revert hi; revert i; decide

theorem witness_VerdictDependsOnCaseThroughLetters :
    (∀ c ∈ txt "IE======", ¬(0x61 ≤ c.toNat ∧ c.toNat ≤ 0x7A)) ∧
    (∃ c ∈ txt "IE=====z", 0x61 ≤ c.toNat ∧ c.toNat ≤ 0x7A) := by decide

theorem witness_InvalidCharacterNeverOccurs : (pending .decode true bench).busy = true := by decide

/-- A valid text for each length of its data region mod 8. -/
theorem witness_DecodedLength :
    (["IFBEGRCF", "IFBEGRA=", "IFBEG===", "IFBA====", "IE======"].all fun s => validateText false (txt s)) = true := by
  decide

theorem witness_DecodeRepacksItsSymbols : validateText true (txt "if======") = true := by decide

theorem witness_DecodeOfEncodedTextIsTheInput : 1 ≤ (txt "A").length := by decide

theorem witness_EncodeOfDecodedTextIsCanonical :
    validateText true (txt "ie======") = true ∧
    symbolsValue (textValues true ((txt "ie======").take ((txt "ie======").findIdx (· == 0x3D#8)))) %
      2 ^ (5 * (txt "ie======").findIdx (· == 0x3D#8) % 8) = 0 := by decide

theorem witness_ResetLeavesTheDocumentedState :
    (hosted [] [.reset, .host] (pending .decode true bench)).schedule = .reset :: [.host] := by decide

theorem witness_EveryStepKeepsTheInvariant :
    State.Inv (pending .encode true bench) ∧ ∃ t, step (pending .encode true bench) = .next t :=
  ⟨pending_inv, _, rfl⟩

theorem witness_ResultRegistersReadZeroWhileBusy :
    State.Inv (pending .encode true bench) ∧ (pending .encode true bench).busy = true := ⟨pending_inv, rfl⟩

theorem witness_EveryStepKeepsTheParameters : ∃ t, step bench = .next t := ⟨_, rfl⟩

/-- A command with host turns before its completion, and one that a reset abandons. -/
theorem witness_EveryAcceptedCommandCompletes :
    (hosted [] [.host, .host] (pending .encode true bench)).busy = true ∧
    (hosted [] [.reset] (pending .encode true bench)).busy = true ∧
    Turn.reset ∈ (hosted [] [.reset] (pending .encode true bench)).schedule := by decide

end Sys2Proof.Tests
end

section
/-! PROOFS. The capacity of OUT against the output of every admitted command (spec 00_scope.md R11). -/

namespace Sys2Proof.Proofs

open Sys2Proof.Machine

theorem outCap_eq (c : Config) : outCap c = 8 * ((c.inCap + 4) / 5) := rfl

/-- OUT is at least as large as IN, since OUT_CAP >= 8 * IN_CAP / 5. -/
theorem inCap_le_outCap (c : Config) : c.inCap ≤ outCap c := by
  rw [outCap_eq]; omega

/-- What ENCODE writes for an admitted input fits OUT (R128): the output length is monotone in the input's. -/
theorem encodeText_length_le_outCap (c : Config) (b text : List Byte) (h : encodeText b = .ok text)
    (hb : b.length ≤ c.inCap) : text.length ≤ outCap c := by
  rw [encodeText_length b text h, outCap_eq]
  exact Nat.mul_le_mul_left 8 (Nat.div_le_div_right (Nat.add_le_add_right hb 4))

/-- The longest admitted input of ENCODE fills OUT exactly. -/
theorem encodeText_length_eq_outCap (c : Config) (b text : List Byte) (h : encodeText b = .ok text)
    (hb : b.length = c.inCap) : text.length = outCap c := by
  rw [encodeText_length b text h, outCap_eq, hb]

/-- What DECODE writes for an admitted text (R145): its data region is no longer than the text. -/
theorem decodeText_length_le (c : Config) (ic : Bool) (s out : List Byte) (h : decodeText ic s = .ok out)
    (hs : s.length ≤ c.inCap) : out.length ≤ 5 * c.inCap / 8 := by
  rw [decodeText_length ic s out h]
  have hdata : firstPad s ≤ c.inCap := (firstPad_le s).trans hs
  exact Nat.div_le_div_right (Nat.mul_le_mul_left 5 hdata)

/-- Five eighths of IN_CAP, the bound of DECODE, is within OUT_CAP. -/
theorem five_eighths_inCap_le_outCap (c : Config) : 5 * c.inCap / 8 ≤ outCap c := by
  have hcap := inCap_le_outCap c
  omega

/-- Settles O40: the two output lengths bounded by IN_CAP, and OUT_CAP by the bound on IN_CAP (R10). -/
theorem outputNeverOverflows : Obligations.OutputNeverOverflows := by
  refine ⟨fun c b text h hb => ⟨?_, ?_⟩, fun c ic s out h hs => ⟨?_, ?_⟩, outCap_eq, outCap_le, fun c hc => ?_⟩
  · exact encodeText_length_le_outCap c b text h hb
  · exact encodeText_length_eq_outCap c b text h
  · exact decodeText_length_le c ic s out h hs
  · exact (decodeText_length_le c ic s out h hs).trans (five_eighths_inCap_le_outCap c)
  · rw [outCap_eq, hc]

end Sys2Proof.Proofs
end

section
/-! PROOFS. The registers at the bus: writes of CTRL, the fields of CTRL and STATUS, and the read-only registers
(spec 10_state.md R24 to R40). -/

namespace Sys2Proof.Proofs

open Sys2Proof.Machine

/-! ### Writes of CTRL -/

/-- A write of CTRL is the command its word decodes to (R80), and gives no data. -/
theorem busAccess_commandRequest (w : Word) (s : State) :
    busAccess (commandRequest w) s = withoutData (exec (decodeCommand w) s) := by
  simp only [busAccess, decodeRequest_command, performAccess]

/-- While busy every command word is dropped whole (R28). -/
theorem exec_of_busy (i : Instr) (s : State) (hbusy : s.busy = true) : exec i s = .next s := by
  rcases exec_cases i s with ⟨-, he⟩ | ⟨hidle, -⟩ | ⟨hidle, -⟩
  · exact he
  · simp [hbusy] at hidle
  · simp [hbusy] at hidle

/-- What a CTRL write does while idle: bit 8 alone decides whether the stored OP and IGNORE_CASE also start a
command (R180, R181). -/
theorem exec_decodeCommand_of_idle (w : Word) (s : State) (hidle : s.busy = false) :
    exec (decodeCommand w) s =
      .next (if w.getLsbD 8 then acceptCommand (Op.ofBits (w.extractLsb' 0 2)) (w.getLsbD 2) s
        else storeCtrl (Op.ofBits (w.extractLsb' 0 2)) (w.getLsbD 2) s) := by
  cases hstart : w.getLsbD 8 with
  | true => rw [exec_of_start w s hstart, startCommand_of_idle _ _ s hidle]; rfl
  | false => rw [exec_of_cfg w s hstart]; simp [execCfg, hidle]

/-- Settles O10: a busy block drops the command, and an idle one stores the word's fields and is busy after it
exactly when it accepted a START word. -/
theorem ctrlWriteIsIgnoredWhileBusy : Obligations.CtrlWriteIsIgnoredWhileBusy := by
  refine fun w s => ⟨fun hbusy => ?_, fun hidle => ?_⟩
  · rw [busAccess_commandRequest, exec_of_busy _ s hbusy]; rfl
  · rw [busAccess_commandRequest, exec_decodeCommand_of_idle w s hidle]
    refine ⟨_, rfl, ?_⟩
    cases w.getLsbD 8 <;> simp [hidle]

/-! ### The fields of CTRL -/

/-- CTRL bits [1:0] are OP (R24). -/
theorem ctrlWord_extract_op (s : State) : (ctrlWord s).extractLsb' 0 2 = s.op.bits := by
  refine BitVec.eq_of_getLsbD_eq fun j hj => ?_
  simp [ctrlWord_getLsbD, hj]

/-- The decoder reads bits 0, 1, 2 and 8 of a word and no other (R81, R84). -/
theorem decodeCommand_mask (w : Word) : decodeCommand (w &&& 0x00000107#32) = decodeCommand w := by
  have hop : (w &&& 0x00000107#32).extractLsb' 0 2 = w.extractLsb' 0 2 := by
    rw [BitVec.extractLsb'_and]
    exact BitVec.and_allOnes
  have hic : (w &&& 0x00000107#32).getLsbD 2 = w.getLsbD 2 := by simp
  have hstart : (w &&& 0x00000107#32).getLsbD 8 = w.getLsbD 8 := by simp
  simp only [decodeCommand, hop, hic, hstart]

/-- Settles O22: the CTRL word bit by bit, and a decoder that reads no reserved bit. -/
theorem ctrlReadsItsFieldsAndZeros : Obligations.CtrlReadsItsFieldsAndZeros := by
  refine fun s => ⟨ctrlWord_extract_op s, ctrlWord_getLsbD s 2, fun i hi => ?_, fun w => ?_⟩
  · have h2 : ¬ i < 2 ∧ i ≠ 2 := by omega
    exact (ctrlWord_getLsbD s i).trans (by simp [h2])
  · rw [busAccess_commandRequest, busAccess_commandRequest, decodeCommand_mask]

/-! ### Read-only registers and holes -/

/-- A write of any register but CTRL and IN_LEN is ignored and is no bus error (R40). -/
theorem busAccess_write_readOnly (r : Reg) (v : Word) (s : State) (hctrl : r ≠ .ctrl) (hlen : r ≠ .inLen) :
    busAccess ⟨regOffset r, 4, true, v⟩ s = .next (s, 0) := by
  simp only [busAccess, decodeRequest_reg_write s.cfg r v hctrl, performAccess]
  cases r with
  | inLen => exact absurd rfl hlen
  | _ => rfl

/-- Between the registers and the IN window the block decodes no access, of any size or direction (R50). -/
theorem decodeRequest_hole (c : Config) (r : Request) (hreg : regEnd ≤ r.off) (hin : r.off < inBase) :
    ∃ cause, decodeRequest c r = .error cause := by
  unfold decodeRequest
  cases sizeOfBytes r.n with
  | none => exact ⟨.size, rfl⟩
  | some sz => exact ⟨.hole, by simp only [Nat.not_lt.2 hreg, hin, if_false, if_true]⟩

/-- Settles O23: a read-only register ignores its write, and the hole above the registers decodes nothing. -/
theorem readOnlyRegistersIgnoreWrites : Obligations.ReadOnlyRegistersIgnoreWrites := by
  refine fun s v off => ⟨?_, fun n w hreg hin => ?_⟩
  · have ignored (r : Reg) := busAccess_write_readOnly r v s
    rintro (rfl | rfl | rfl | rfl | rfl | rfl | rfl)
    · exact ignored .id (by decide) (by decide)
    · exact ignored .status (by decide) (by decide)
    · exact ignored .outLen (by decide) (by decide)
    · exact ignored .errPos (by decide) (by decide)
    · exact ignored .errChar (by decide) (by decide)
    · exact ignored .capIn (by decide) (by decide)
    · exact ignored .capOut (by decide) (by decide)
  · obtain ⟨cause, hcause⟩ := decodeRequest_hole s.cfg ⟨off, n, w, v⟩ hreg hin
    exact ⟨cause, by simp only [busAccess, hcause]⟩

/-! ### The fields of STATUS -/

/-- STATUS bits [7:4] are RESULT (R32). -/
theorem statusWord_extract_result (s : State) : (statusWord s).extractLsb' 4 4 = s.result := by
  refine BitVec.eq_of_getLsbD_eq fun j hj => ?_
  have hflags : 4 + j ≠ 1 ∧ 4 + j ≠ 2 := by omega
  simp [statusWord_getLsbD, hj, hflags]

/-- STATUS bits [31:8] are reserved and read 0 (R33). -/
theorem statusWord_getLsbD_of_ge (s : State) (i : Nat) (hi : 8 ≤ i) : (statusWord s).getLsbD i = false := by
  have hfield : i ≠ 0 ∧ i ≠ 1 ∧ i ≠ 2 ∧ ¬ i < 4 := by omega
  simp only [statusWord_getLsbD, hfield, if_false]
  exact BitVec.getLsbD_of_ge _ _ (by omega)

/-- Settles O21: the STATUS word bit by bit, and STATUS as one of the read-only registers. -/
theorem statusReadsItsFieldsAndZeros : Obligations.StatusReadsItsFieldsAndZeros := by
  refine ⟨fun s => ⟨statusWord_getLsbD s 0, statusWord_getLsbD s 1, statusWord_getLsbD s 2,
    statusWord_extract_result s, statusWord_getLsbD s 3, statusWord_getLsbD_of_ge s, fun v => ?_⟩, by decide⟩
  exact busAccess_write_readOnly .status v s (by decide) (by decide)

end Sys2Proof.Proofs
end

section
/-! PROOFS. The operands of a running command: what the block does with a host write while busy, and what every
step of a busy block keeps (spec 20_memory.md R61). -/

namespace Sys2Proof.Proofs

open Sys2Proof.Machine

/-! ### Writes while busy -/

/-- While busy no register takes a write (R34, R40). -/
theorem writeReg_of_busy (r : Reg) (v : Word) (s : State) (hbusy : s.busy = true) : writeReg r v s = s := by
  cases r with
  | inLen => exact storeInLen_of_busy v s hbusy
  | _ => rfl

/-- A write the block decodes is a command, a register write or a write of IN, and a busy block drops each. -/
theorem busAccess_write_of_busy (s : State) (r : Request) (hbusy : s.busy = true) (hc : s.cfg.wf)
    (hwrite : r.write = true) (hlegal : legalAccess s.cfg r) : busAccess r s = .next (s, 0) := by
  obtain ⟨a, ha⟩ := (legalAccess_iff s.cfg r hc).1 hlegal
  simp only [busAccess, ha]
  rcases decodeRequest_write s.cfg r a ha hwrite with ⟨-, -, rfl⟩ | ⟨reg, -, -, -, rfl⟩ | ⟨sz, i, -, -, rfl⟩
  · simp only [performAccess, exec_of_busy _ s hbusy, withoutData]
  · simp only [performAccess, writeReg_of_busy reg _ s hbusy]
  · simp only [performAccess, storeIn_of_busy sz i _ s hbusy]

/-! ### What a command reads -/

/-- Everything a command's result is computed from: the operands (R59, R83) and the parameters, of which the
capacity check reads IN_CAP. -/
structure SameOperands (s t : State) : Prop where
  op : t.op = s.op
  ignoreCase : t.ignoreCase = s.ignoreCase
  inLen : t.inLen = s.inLen
  input : SameIn s t
  cfg : t.cfg = s.cfg

theorem SameOperands.trans {s t u : State} (hst : SameOperands s t) (htu : SameOperands t u) :
    SameOperands s u where
  op := htu.op.trans hst.op
  ignoreCase := htu.ignoreCase.trans hst.ignoreCase
  inLen := htu.inLen.trans hst.inLen
  input := fun i => (htu.input i).trans (hst.input i)
  cfg := htu.cfg.trans hst.cfg

theorem commandInput_of_sameOperands {s t : State} (h : SameOperands s t) : commandInput t = commandInput s := by
  have hbytes : inByte t = inByte s := funext h.input
  simp only [commandInput, inputLength, h.inLen, hbytes]

theorem commandResult_of_sameOperands {s t : State} (h : SameOperands s t) :
    commandResult t = commandResult s := by
  have hinput := commandInput_of_sameOperands h
  have hover : overCapacity t = overCapacity s :=
    decide_eq_decide.2 (by rw [inputLength, inputLength, h.inLen, h.cfg])
  simp only [commandResult, encodeResult, decodeResult, validateResult, reservedResult, h.op, h.ignoreCase,
    hinput, hover]

/-! ### Steps of a busy block -/

theorem countDraws_sameOperands (sz : Size) (s : State) : SameOperands s (countDraws sz s) :=
  ⟨by simp, by simp, by simp, fun i => by simp [inByte], by simp⟩

theorem hostFinish_sameOperands (op : HostOp) (d : Word) (t : State) : SameOperands t (hostFinish op d t) := by
  obtain ⟨hop, hic, hlen, hin, hcfg, -, -⟩ := hostFinish_block op d t
  exact ⟨hop, hic, hlen, hin, hcfg⟩

theorem busAccess_sameOperands_of_busy (r : Request) (s t : State) (d : Word) (hbusy : s.busy = true)
    (h : busAccess r s = .next (t, d)) : SameOperands s t := by
  rcases busAccess_of_busy r s t d hbusy h with rfl | ⟨sz, rfl⟩
  · exact ⟨rfl, rfl, rfl, fun _ => rfl, rfl⟩
  · exact countDraws_sameOperands sz s

/-- A step that neither completes nor abandons the pending command keeps its operands: a reset and the engine's
turn end with the block idle, and a host access changes at most the count of draws. -/
theorem step_sameOperands_of_busy (s t : State) (hbusy : s.busy = true) (hstep : step s = .next t)
    (hstill : t.busy = true) : SameOperands s t := by
  rcases step_cases s t hstep with rfl | rfl | rfl | ⟨op, rest, u, d, -, haccess, rfl⟩
  · simp at hstill
  · rw [engineTurn_of_busy (afterTurn s) hbusy, commit_busy] at hstill
    cases hstill
  · exact ⟨rfl, rfl, rfl, fun _ => rfl, rfl⟩
  · have hused : SameOperands s { afterTurn s with program := rest } := ⟨rfl, rfl, rfl, fun _ => rfl, rfl⟩
    have hbus := busAccess_sameOperands_of_busy _ { afterTurn s with program := rest } u d hbusy haccess
    exact (hused.trans hbus).trans (hostFinish_sameOperands op d u)

/-- Settles O20: a busy block drops every write it decodes, and a step after which it is still busy keeps
all that the command's result is computed from. -/
theorem operandsAreFrozenWhileBusy : Obligations.OperandsAreFrozenWhileBusy := by
  refine ⟨busAccess_write_of_busy, fun s t hbusy hstep hstill => ?_⟩
  have h := step_sameOperands_of_busy s t hbusy hstep hstill
  exact ⟨h.op, h.ignoreCase, h.inLen, h.input, h.cfg, commandResult_of_sameOperands h⟩

end Sys2Proof.Proofs
end

section
/-! PROOFS. The buffer windows at the bus: which accesses of IN and OUT are legal, what they read and write, and
the order of the bytes in a word (spec 20_memory.md R51 to R57, R62). -/

namespace Sys2Proof.Proofs

open Sys2Proof.Machine

/-! ### Legal accesses, window by window -/

/-- An access the block does not decode is a bus error at its offset (R55, R206). -/
theorem busAccess_fault_of_not_legal (r : Request) (s : State) (hc : s.cfg.wf) (h : ¬ legalAccess s.cfg r) :
    ∃ cause, busAccess r s = .fault (.busError r.off cause) := by
  cases hdecode : decodeRequest s.cfg r with
  | ok a => exact absurd ((legalAccess_iff s.cfg r hc).2 ⟨a, hdecode⟩) h
  | error cause => exact ⟨cause, by simp only [busAccess, hdecode]⟩

/-- Within the IN window the size, alignment and index of R53 decide, in both directions. -/
theorem legalAccess_in_iff (c : Config) (i n : Nat) (w : Bool) (d : Word) (hi : i < 0x100000) :
    legalAccess c ⟨0x100000 + i, n, w, d⟩ ↔ windowAccess c.inCap i n := by
  have hreg : ¬ 0x100000 + i < 0x24 := by omega
  have hout : ¬ 0x200000 ≤ 0x100000 + i := by omega
  simp [legalAccess, hreg, hout]

/-- Within the OUT window only reads are legal (R54): IN, at most 0xA0000 bytes long, ends below it. -/
theorem legalAccess_out_iff (c : Config) (i n : Nat) (w : Bool) (d : Word) (hc : c.wf) :
    legalAccess c ⟨0x200000 + i, n, w, d⟩ ↔ w = false ∧ windowAccess (outCap c) i n := by
  have hcap := hc.2
  have hreg : ¬ 0x200000 + i < 0x24 := by omega
  have hin : ¬ windowAccess c.inCap (0x200000 + i - 0x100000) n := by simp only [windowAccess]; omega
  simp [legalAccess, hreg, hin]

/-- A register is accessed as a whole word (R52), so no single byte below the register map's end is. -/
theorem not_legalAccess_byte_of_reg (c : Config) (off : Nat) (w : Bool) (v : Word) (h : off < 0x24) :
    ¬ legalAccess c ⟨off, 1, w, v⟩ := by
  have hin : ¬ 0x100000 ≤ off := by omega
  have hout : ¬ 0x200000 ≤ off := by omega
  simp [legalAccess, hin, hout]

/-- An index a window admits lies below its capacity. -/
theorem windowAccess_lt (cap i n : Nat) (h : windowAccess cap i n) : i < cap := by
  simp only [windowAccess] at h; omega

/-! ### Bytes and lanes -/

/-- Byte j of what a write stores is lane j of its data (R57). -/
theorem storedBytes_lane (sz : Size) (v : Word) (j : Nat) (hj : j < sizeBytes sz) :
    (storedBytes sz v)[j]? = some (v.extractLsb' (8 * j) 8) := by
  cases sz with
  | byte =>
    obtain rfl : j = 0 := by simp only [sizeBytes] at hj; omega
    rfl
  | word =>
    simp only [sizeBytes] at hj
    interval_cases j <;> rfl

/-- Lane j of a word read from a window is the byte j places up (R57). -/
theorem loadFrom_word_lane (f : Nat → Byte) (i j : Nat) (hj : j < 4) :
    (loadFrom f .word i).extractLsb' (8 * j) 8 = f (i + j) := by
  obtain ⟨h0, h1, h2, h3⟩ := loadFrom_word_lanes f i
  interval_cases j
  · exact h0
  · exact h1
  · exact h2
  · exact h3

/-- A word is its four lanes. -/
theorem word_eq_of_lanes (v w : Word)
    (h : ∀ j, j < 4 → v.extractLsb' (8 * j) 8 = w.extractLsb' (8 * j) 8) : v = w := by
  refine BitVec.eq_of_getLsbD_eq fun k hk => ?_
  have hlane := congrArg (fun b => b.getLsbD (k % 8)) (h (k / 8) (by omega))
  have hk8 : k % 8 < 8 := by omega
  simpa [hk8, Nat.div_add_mod] using hlane

/-! ### The IN window -/

/-- A write of IN touches the bytes of IN alone. -/
theorem storeIn_frame (sz : Size) (i : Nat) (v : Word) (s : State) :
    storeIn sz i v s = { s with inBuf := (storeIn sz i v s).inBuf } := by
  unfold storeIn; split <;> rfl

theorem inByte_storeIn_lane (sz : Size) (i j : Nat) (v : Word) (s : State) (hidle : s.busy = false)
    (hj : j < sizeBytes sz) : inByte (storeIn sz i v s) (i + j) = v.extractLsb' (8 * j) 8 := by
  have hin : i ≤ i + j ∧ i + j < i + sizeBytes sz := by omega
  rw [inByte_storeIn sz i (i + j) v s hidle, if_pos hin, Nat.add_sub_cancel_left, storedBytes_lane sz v j hj]
  rfl

theorem inByte_storeIn_outside (sz : Size) (i j : Nat) (v : Word) (s : State) (hidle : s.busy = false)
    (hj : j < i ∨ i + sizeBytes sz ≤ j) : inByte (storeIn sz i v s) j = inByte s j := by
  have hout : ¬ (i ≤ j ∧ j < i + sizeBytes sz) := by omega
  rw [inByte_storeIn sz i j v s hidle, if_neg hout]

/-- A legal write of IN while idle, of either size: the addressed bytes take the lanes of the data, and no other
byte or field changes (R53, R57). -/
theorem busAccess_in_write_of_idle (s : State) (sz : Size) (i : Nat) (d : Word) (hc : s.cfg.wf)
    (hidle : s.busy = false) (h : windowAccess s.cfg.inCap i (sizeBytes sz)) :
    ∃ t, busAccess ⟨inBase + i, sizeBytes sz, true, d⟩ s = .next (t, 0) ∧
      (∀ j, j < sizeBytes sz → inByte t (i + j) = d.extractLsb' (8 * j) 8) ∧
      (∀ j, (j < i ∨ i + sizeBytes sz ≤ j) → inByte t j = inByte s j) ∧ t = { s with inBuf := t.inBuf } :=
  ⟨storeIn sz i d s, busAccess_in_write s sz i d hc h,
    fun j => inByte_storeIn_lane sz i j d s hidle, fun j => inByte_storeIn_outside sz i j d s hidle,
    storeIn_frame sz i d s⟩

/-- A misaligned word of the IN window, or one that runs past IN_CAP, is a bus error (R53, R55). -/
theorem busAccess_in_word_fault (s : State) (i : Nat) (w : Bool) (d : Word) (hc : s.cfg.wf) (hi : i < 0x100000)
    (hbad : i % 4 ≠ 0 ∨ s.cfg.inCap ≤ i + 3) :
    ∃ cause, busAccess ⟨0x100000 + i, 4, w, d⟩ s = .fault (.busError (0x100000 + i) cause) := by
  refine busAccess_fault_of_not_legal ⟨0x100000 + i, 4, w, d⟩ s hc ?_
  rw [legalAccess_in_iff s.cfg i 4 w d hi]
  simp only [windowAccess]
  omega

/-- While busy a legal write of IN is dropped and is no bus error (R53, R61). -/
theorem busAccess_in_write_of_busy (s : State) (i n : Nat) (d : Word) (hc : s.cfg.wf) (hbusy : s.busy = true)
    (h : windowAccess s.cfg.inCap i n) : busAccess ⟨0x100000 + i, n, true, d⟩ s = .next (s, 0) := by
  have hcap := hc.2
  have hlt := windowAccess_lt _ _ _ h
  have hi : i < 0x100000 := by omega
  exact busAccess_write_of_busy s _ hbusy hc rfl ((legalAccess_in_iff s.cfg i n true d hi).2 h)

/-- Settles O28: the legal accesses of IN by their size, the words R53 rejects, and the writes a busy block
drops. -/
theorem inWindowAccesses : Obligations.InWindowAccesses := by
  refine fun s i d hc => ⟨fun hi => ?_, fun halign hi => ?_, fun w => busAccess_in_word_fault s i w d hc,
    fun hbusy n => busAccess_in_write_of_busy s i n d hc hbusy⟩
  · have hbyte : windowAccess s.cfg.inCap i (sizeBytes .byte) := .inl ⟨rfl, hi⟩
    refine ⟨busAccess_in_read s .byte i d hc hbyte, fun hidle => ?_⟩
    obtain ⟨t, ht, hlane, hother, hframe⟩ := busAccess_in_write_of_idle s .byte i d hc hidle hbyte
    exact ⟨t, ht, hlane 0 (by decide), fun j hj => hother j (by simp only [sizeBytes]; omega), hframe⟩
  · have hword : windowAccess s.cfg.inCap i (sizeBytes .word) := .inr ⟨rfl, halign, hi⟩
    exact ⟨busAccess_in_read s .word i d hc hword,
      fun hidle => busAccess_in_write_of_idle s .word i d hc hidle hword⟩

/-! ### The OUT window -/

/-- While idle a legal read of OUT gives the stored bytes and changes nothing (R54). -/
theorem busAccess_out_read_of_idle (s : State) (sz : Size) (i : Nat) (d : Word) (hc : s.cfg.wf)
    (hidle : s.busy = false) (h : windowAccess (outCap s.cfg) i (sizeBytes sz)) :
    busAccess ⟨outBase + i, sizeBytes sz, false, d⟩ s = .next (s, loadFrom (outByte s) sz i) := by
  rw [busAccess_out_read s sz i d hc h, countDraws_of_idle sz s hidle]
  simp [loadOut, hidle]

/-- While busy each byte of a legal read of OUT is the next draw (R62). -/
theorem busAccess_out_read_of_busy (s : State) (sz : Size) (i : Nat) (d : Word) (hc : s.cfg.wf)
    (hbusy : s.busy = true) (h : windowAccess (outCap s.cfg) i (sizeBytes sz)) :
    busAccess ⟨outBase + i, sizeBytes sz, false, d⟩ s =
      .next ({ s with draws := s.draws + sizeBytes sz },
        loadFrom (fun j => Config.busyOutByte (s.draws + j)) sz 0) := by
  rw [busAccess_out_read s sz i d hc h]
  simp [loadOut, countDraws, hbusy]

/-- A write to the OUT window, or a read whose size, alignment or index R54 rejects, is a bus error. -/
theorem busAccess_out_fault (s : State) (i n : Nat) (w : Bool) (d : Word) (hc : s.cfg.wf)
    (hbad : w = true ∨ ¬ windowAccess (outCap s.cfg) i n) :
    ∃ cause, busAccess ⟨0x200000 + i, n, w, d⟩ s = .fault (.busError (0x200000 + i) cause) := by
  refine busAccess_fault_of_not_legal ⟨0x200000 + i, n, w, d⟩ s hc ?_
  rw [legalAccess_out_iff s.cfg i n w d hc]
  rintro ⟨hread, hwindow⟩
  rcases hbad with hwrite | hbad
  · simp [hread] at hwrite
  · exact hbad hwindow

/-- Settles O29: the accesses of OUT that R54 rejects, then the two legal reads while idle and while busy. -/
theorem outWindowAccesses : Obligations.OutWindowAccesses := by
  refine fun s i d hc => ⟨fun n _ => busAccess_out_fault s i n true d hc (.inl rfl),
    fun n _ hbad => busAccess_out_fault s i n false d hc (.inr hbad),
    fun hidle => ⟨fun hi => ?_, fun halign hi => ?_⟩, fun hbusy => ⟨fun hi => ?_, fun halign hi => ?_⟩⟩
  · exact busAccess_out_read_of_idle s .byte i d hc hidle (.inl ⟨rfl, hi⟩)
  · exact busAccess_out_read_of_idle s .word i d hc hidle (.inr ⟨rfl, halign, hi⟩)
  · exact busAccess_out_read_of_busy s .byte i d hc hbusy (.inl ⟨rfl, hi⟩)
  · exact busAccess_out_read_of_busy s .word i d hc hbusy (.inr ⟨rfl, halign, hi⟩)

/-! ### Byte lanes -/

/-- A 1-byte read sees the lane of the word that covers it (R57). -/
theorem loadFrom_byte_eq_lane (f : Nat → Byte) (i j : Nat) (hj : j < 4) :
    loadFrom f .byte (i + j) = ((loadFrom f .word i).extractLsb' (8 * j) 8).zeroExtend 32 := by
  rw [loadFrom_word_lane f i j hj]; rfl

/-- A word written to IN while idle reads back whole (R57). -/
theorem loadFrom_word_storeIn (i : Nat) (v : Word) (s : State) (hidle : s.busy = false) :
    loadFrom (inByte (storeIn .word i v s)) .word i = v := by
  refine word_eq_of_lanes _ _ fun j hj => ?_
  rw [loadFrom_word_lane _ i j hj, inByte_storeIn_lane .word i j v s hidle hj]

/-- Settles O30: both windows load words by lanes, IN stores them by lanes, and a byte of a register is no legal
access. -/
theorem byteLanesAreLittleEndian : Obligations.ByteLanesAreLittleEndian := by
  refine fun s i j hc hidle halign hj => ⟨fun hi => ?_, fun hi => ?_, fun off w v hoff => ?_⟩
  · have hword : windowAccess s.cfg.inCap i (sizeBytes .word) := .inr ⟨rfl, halign, hi⟩
    have hbyte : windowAccess s.cfg.inCap (i + j) (sizeBytes .byte) := .inl ⟨rfl, by omega⟩
    refine ⟨loadFrom (inByte s) .word i, loadFrom (inByte s) .byte (i + j), busAccess_in_read s .word i 0 hc hword,
      ?_, loadFrom_word_lane _ i j hj, loadFrom_byte_eq_lane _ i j hj, fun v => ?_⟩
    · rw [Nat.add_assoc]
      exact busAccess_in_read s .byte (i + j) 0 hc hbyte
    · refine ⟨storeIn .word i v s, busAccess_in_write s .word i v hc hword,
        inByte_storeIn_lane .word i j v s hidle hj, ?_⟩
      have hread := busAccess_in_read (storeIn .word i v s) .word i 0 (by simpa using hc) (by simpa using hword)
      rwa [loadFrom_word_storeIn i v s hidle] at hread
  · have hword : windowAccess (outCap s.cfg) i (sizeBytes .word) := .inr ⟨rfl, halign, hi⟩
    have hbyte : windowAccess (outCap s.cfg) (i + j) (sizeBytes .byte) := .inl ⟨rfl, by omega⟩
    refine ⟨loadFrom (outByte s) .word i, loadFrom (outByte s) .byte (i + j),
      busAccess_out_read_of_idle s .word i 0 hc hidle hword, ?_, loadFrom_word_lane _ i j hj,
      loadFrom_byte_eq_lane _ i j hj⟩
    rw [Nat.add_assoc]
    exact busAccess_out_read_of_idle s .byte (i + j) 0 hc hidle hbyte
  · exact busAccess_fault_of_not_legal ⟨off, 1, w, v⟩ s hc (not_legalAccess_byte_of_reg s.cfg off w v hoff)

end Sys2Proof.Proofs
end

section
/-! PROOFS. The command word: what each word decodes to, and that its ignored bits have no effect at the bus (spec
30_encoding.md R80 to R84). -/

namespace Sys2Proof.Proofs

open Sys2Proof.Machine

/-! ### Ignored bits -/

/-- No command is an error: the three things a command can do all answer a next state. -/
theorem exec_eq_next (i : Instr) (s : State) : ∃ t, exec i s = .next t := by
  rcases exec_cases i s with ⟨-, he⟩ | ⟨-, o, ic, -, he⟩ | ⟨-, o, ic, he⟩
  · exact ⟨s, he⟩
  · exact ⟨storeCtrl o ic s, he⟩
  · exact ⟨acceptCommand o ic s, he⟩

/-- Settles O5: the write is the command its word decodes to, the decoder reads no ignored bit, and no command is
an error. -/
theorem ignoredWordBitsHaveNoEffect : Obligations.IgnoredWordBitsHaveNoEffect := by
  refine fun w s => ⟨?_, ?_⟩
  · rw [busAccess_commandRequest, busAccess_commandRequest, decodeCommand_mask]
  · obtain ⟨t, ht⟩ := exec_eq_next (decodeCommand w) s
    exact ⟨t, by rw [busAccess_commandRequest, ht]; rfl⟩

/-! ### What a word decodes to -/

/-- Settles O2: START picks the branch of the decoder, and with START set each value of the OP bits names its
command. -/
theorem wordsDecodeByStartAndOp : Obligations.WordsDecodeByStartAndOp := by
  refine fun w => ⟨fun hcfg => ?_, fun hstart => ⟨fun hop => ?_, fun hop => ?_, fun hop => ?_, fun hop => ?_⟩⟩
  · simp only [decodeCommand, hcfg, Bool.false_eq_true, if_false]
  all_goals
    rw [decodeCommand, if_pos hstart, hop]
    rfl

end Sys2Proof.Proofs
end

section
/-! PROOFS. The Alphabet: which bytes have a value, and what case folding adds to them (spec 40_alphabet.md R100 to
R105). -/

namespace Sys2Proof.Proofs

open Sys2Proof.Machine

/-! ### Bytes with and without a value -/

/-- R103: outside the letters and the digits of R101 the inverse lookup answers nothing. -/
theorem inv_eq_none (c : Byte) (hletter : ¬(0x41 ≤ c.toNat ∧ c.toNat ≤ 0x5A))
    (hdigit : ¬(0x32 ≤ c.toNat ∧ c.toNat ≤ 0x37)) : inv c = none := by
  rw [inv, if_neg hletter, if_neg hdigit]

/-- Settles O35: the table written out, its two inverse laws, and bytes outside the two ranges of R101. -/
theorem alphabetAndItsInverse : Obligations.AlphabetAndItsInverse := by
  refine ⟨by decide, inv_sym, sym_of_inv, ?_, ?_, ?_, ?_, ?_, fun c hc => ?_⟩
  case refine_6 => exact inv_eq_none c (by omega) (by omega)
  all_goals exact inv_eq_none _ (by decide) (by decide)

/-! ### Case folding -/

theorem fold_of_lowerCase (c : Byte) (h : 0x61 ≤ c.toNat ∧ c.toNat ≤ 0x7A) : fold c = c - 0x20 := if_pos h

theorem fold_of_not_lowerCase (c : Byte) (h : ¬(0x61 ≤ c.toNat ∧ c.toNat ≤ 0x7A)) : fold c = c := if_neg h

@[simp] theorem lookup_true (c : Byte) : lookup true c = inv (fold c) := rfl

@[simp] theorem lookup_false (c : Byte) : lookup false c = inv c := rfl

/-- Case-sensitive, the bytes with a value are the digits and the upper-case letters. -/
theorem bytes_with_value_of_caseSensitive :
    ((List.range 256).filter fun n => (lookup false (BitVec.ofNat 8 n)).isSome) =
      List.range' 0x32 6 ++ List.range' 0x41 26 := by decide

/-- With case ignored, the lower-case letters join them. -/
theorem bytes_with_value_of_ignoreCase :
    ((List.range 256).filter fun n => (lookup true (BitVec.ofNat 8 n)).isSome) =
      List.range' 0x32 6 ++ List.range' 0x41 26 ++ List.range' 0x61 26 := by decide

/-- Settles O36: folding changes the lower-case letters alone, no lower-case letter is a symbol, and the counts are
those of the listed bytes. -/
theorem lookupFoldsOnlyLetters : Obligations.LookupFoldsOnlyLetters := by
  refine ⟨fun c hc => ⟨?_, ?_⟩, fun c hc => ⟨?_, lookup_false c⟩, ?_, ?_⟩
  · rw [lookup_true, fold_of_lowerCase c hc]
  · exact inv_eq_none c (by omega) (by omega)
  · rw [lookup_true, fold_of_not_lowerCase c hc]
  · simp only [bytes_with_value_of_ignoreCase, List.length_append, List.length_range']
  · simp only [bytes_with_value_of_caseSensitive, List.length_append, List.length_range']

end Sys2Proof.Proofs
end

section
/-! PROOFS. The encoder: the length of a text, what each of its characters is, and that its padding is legal (spec
41_encoder.md R121 to R131). -/

namespace Sys2Proof.Proofs

open Sys2Proof.Machine

/-! ### When there is a text, and its length -/

@[simp] theorem encodeText_nil : encodeText [] = .error .emptyInput := rfl

theorem encodeText_of_ne_nil (b : List Byte) (hb : b ≠ []) : encodeText b = .ok (encodeBlocks b) :=
  if_neg fun hlen => hb (List.length_eq_zero_iff.1 hlen)

/-- R121, R129: a text is the blocks of an input that has bytes. -/
theorem encodeText_eq_ok_iff (b text : List Byte) :
    encodeText b = .ok text ↔ b ≠ [] ∧ encodeBlocks b = text := by
  by_cases hb : b = []
  · simp [hb]
  · simp [encodeText_of_ne_nil b hb, hb]

/-- Settles O37: the length is eight characters a block, and an input that has bytes has a block. -/
theorem encodedLength : Obligations.EncodedLength := by
  refine ⟨encodeText_nil, fun b hb => ⟨encodeBlocks b, encodeText_of_ne_nil b hb, ?_⟩⟩
  have hpos : 0 < b.length := List.length_pos_iff.2 hb
  have hlen := encodeText_length b _ (encodeText_of_ne_nil b hb)
  refine ⟨?_, hlen, by omega, by omega⟩
  split <;> omega

/-! ### The characters of a text -/

/-- The blocks of an input that has bytes: the first, which may be short, and those of the rest (R122). -/
theorem encodeBlocks_of_ne_nil (b : List Byte) (hb : b ≠ []) :
    encodeBlocks b = encodeBlock (b.take 5) ++ encodeBlocks (b.drop 5) := by
  rcases Nat.le_total 5 b.length with hlong | hshort
  · exact encodeBlocks_step b hlong
  · rw [encodeBlocks_short b (List.length_pos_iff.2 hb) hshort, List.take_of_length_le hshort,
      List.drop_of_length_le hshort]
    exact (List.append_nil _).symm

theorem encodeBlock_getElem? (blk : List Byte) (p : Nat) (hp : p < 8) :
    (encodeBlock blk)[p]? = some (blockSymbol blk p) := by
  simp [encodeBlock, hp]

/-- R122, R124: character 8k + p is symbol position p of block k. -/
theorem encodeBlocks_getElem? (b : List Byte) (k p : Nat) (hk : 5 * k < b.length) (hp : p < 8) :
    (encodeBlocks b)[8 * k + p]? = some (blockSymbol (inputBlock b k) p) := by
  have hne : b ≠ [] := List.length_pos_iff.1 (by omega)
  induction k generalizing b with
  | zero =>
    rw [encodeBlocks_of_ne_nil b hne, List.getElem?_append_left (by simpa using hp), Nat.mul_zero, Nat.zero_add,
      encodeBlock_getElem? _ p hp]
    rfl
  | succ k ih =>
    have hrest : 5 * k < (b.drop 5).length := by rw [List.length_drop]; omega
    have hblock : inputBlock (b.drop 5) k = inputBlock b (k + 1) := by
      rw [inputBlock, inputBlock, List.drop_drop, Nat.mul_succ, Nat.add_comm 5]
    have hindex : 8 * (k + 1) + p - 8 = 8 * k + p := by omega
    rw [encodeBlocks_of_ne_nil b hne, List.getElem?_append_right (by rw [encodeBlock_length]; omega),
      encodeBlock_length, hindex, ih (b.drop 5) hrest (List.length_pos_iff.1 (by omega)), hblock]

@[simp] theorem inputBlock_length (b : List Byte) (k : Nat) :
    (inputBlock b k).length = min 5 (b.length - 5 * k) := by
  simp [inputBlock]

/-- R123: the bytes of block k are the input's from 5k on, 0 past its end. -/
theorem blockByte_inputBlock (b : List Byte) (k j : Nat) (hj : j < 5) :
    blockByte (inputBlock b k) j = b.getD (5 * k + j) 0 := by
  simp [blockByte, inputBlock, hj]

/-- R123: a block's number is that of its five bytes, those it lacks counting 0. -/
theorem blockValue_toNat_eq_sum (blk : List Byte) :
    (blockValue blk).toNat = (blockByte blk 0).toNat * 2 ^ 32 + (blockByte blk 1).toNat * 2 ^ 24 +
      (blockByte blk 2).toNat * 2 ^ 16 + (blockByte blk 3).toNat * 2 ^ 8 + (blockByte blk 4).toNat := by
  have hfull : (blockValue blk).toNat =
      bytesValue [blockByte blk 0, blockByte blk 1, blockByte blk 2, blockByte blk 3, blockByte blk 4] :=
    (blockValue_toNat [blockByte blk 0, blockByte blk 1, blockByte blk 2, blockByte blk 3, blockByte blk 4]
      le_rfl).trans (Nat.mul_one _)
  rw [hfull]
  simp only [bytesValue, List.foldl_cons, List.foldl_nil]
  ring

theorem blockField_eq_ofNat (v : BitVec 40) (p : Nat) :
    blockField v p = BitVec.ofNat 5 (v.toNat / 2 ^ (35 - 5 * p)) :=
  BitVec.eq_of_toNat_eq (blockField_toNat v p)

/-- Settles O38: the character is position p of block k, whose length is min(5, n - 5k) and whose number is that of
the input's bytes from 5k on. -/
theorem encodedSymbolIsItsBlockField : Obligations.EncodedSymbolIsItsBlockField := by
  intro b text k p htext hk hp
  obtain ⟨-, rfl⟩ := (encodeText_eq_ok_iff b text).1 htext
  rw [encodeBlocks_getElem? b k p hk hp, blockSymbol, inputBlock_length,
    dataSymbols_eq _ (Nat.min_le_left 5 _), blockField_eq_ofNat, blockValue_toNat_eq_sum]
  simp (disch := decide) only [blockByte_inputBlock]
  rfl

/-! ### Padded texts that validate -/

theorem rejectsBlank_of_mem (ic : Bool) (s : List Byte) (c : Byte) (hc : c ∈ s) (hval : (lookup ic c).isSome) :
    rejectsBlank s = false := by
  have hws : ¬ isWs c = true := fun hws => by simp [lookup_of_isWs ic c hws] at hval
  have hlen : s.length ≠ 0 := (List.length_pos_of_mem hc).ne'
  have hall : ¬ s.all isWs = true := fun hall => hws (List.all_eq_true.1 hall c hc)
  simp only [rejectsBlank, hlen, hall, decide_false, Bool.false_or]

/-- Check 3 passes when the text begins with two characters other than '='. -/
theorem rejectsEarlyPad_append (d rest : List Byte) (hd : ∀ c ∈ d, isPad c = false) (hlen : 2 ≤ d.length) :
    rejectsEarlyPad (d ++ rest) = false := by
  have hchar : ∀ i (hi : i < d.length), (d ++ rest)[i]? ≠ some padByte := by
    intro i hi hpad
    rw [List.getElem?_append_left hi] at hpad
    exact absurd (hd padByte (List.mem_of_getElem? hpad)) (by simp)
  simp [rejectsEarlyPad, hchar 0 (by omega), hchar 1 (by omega)]

theorem rejectsCharacter_append (ic : Bool) (d : List Byte) (n : Nat) (hd : ∀ c ∈ d, (lookup ic c).isSome) :
    rejectsCharacter ic (d ++ List.replicate n padByte) = false := by
  rw [rejectsCharacter, List.any_eq_false]
  intro c hc
  rcases List.mem_append.1 hc with hdata | hpad
  · simp [Option.isNone_eq_false_iff.2 (hd c hdata)]
  · simp [List.eq_of_mem_replicate hpad]

/-- Members of the Alphabet and then a legal number of '=', a positive multiple of 8 characters in all, pass the six
checks (R161 to R167). At most six of the eight are '=', so the text begins with two members. -/
theorem validateText_append (ic : Bool) (d : List Byte) (n : Nat) (hd : ∀ c ∈ d, (lookup ic c).isSome)
    (hpos : 0 < d.length + n) (hmul : (d.length + n) % 8 = 0) (hn : n ∈ [0, 1, 3, 4, 6]) :
    validateText ic (d ++ List.replicate n padByte) = true := by
  have hnotPad : ∀ c ∈ d, isPad c = false := fun c hc => isPad_of_lookup ic c (hd c hc)
  have hle : n ≤ 6 := (by decide : ∀ m ∈ [0, 1, 3, 4, 6], m ≤ 6) n hn
  have htwo : 2 ≤ d.length := by omega
  have hhead : d[0] ∈ d := List.getElem_mem _
  have hblank : rejectsBlank (d ++ List.replicate n padByte) = false :=
    rejectsBlank_of_mem ic _ d[0] (List.mem_append_left _ hhead) (hd _ hhead)
  have hlength : rejectsLength (d ++ List.replicate n padByte) = false := by
    simp only [rejectsLength, List.length_append, List.length_replicate, hpos.ne', hmul, ne_eq, not_true_eq_false,
      decide_false, Bool.or_self]
  have hcount : rejectsPadCount (d ++ List.replicate n padByte) = false := by
    rw [rejectsPadCount, padSpan_append d n hnotPad, decide_eq_true hn, Bool.not_true]
  simp only [validateText, hblank, hlength, rejectsEarlyPad_append d _ hnotPad htwo,
    rejectsCharacter_append ic d n hd, rejectsInnerPad_append d n hnotPad, hcount, Bool.not_false, Bool.and_self]

theorem lookup_isSome_of_mem_map_sym (ic : Bool) (vs : List (BitVec 5)) :
    ∀ c ∈ vs.map sym, (lookup ic c).isSome := by
  intro c hc
  obtain ⟨v, -, rfl⟩ := List.mem_map.1 hc
  rw [lookup_sym, Option.isSome_some]

/-! ### The padding of a text -/

/-- R131: the number of '=' in the text of n bytes. -/
def padCount (n : Nat) : Nat := 8 * blockCount n - (8 * n + 4) / 5

/-- R131: the data symbols and the padding together are the blocks of R128. -/
theorem dataCount_add_padCount (n : Nat) : (8 * n + 4) / 5 + padCount n = 8 * ((n + 4) / 5) := by
  rw [padCount, blockCount]; omega

theorem padCount_eq (n : Nat) : padCount n =
    if n % 5 = 0 then 0 else if n % 5 = 1 then 6 else if n % 5 = 2 then 4 else if n % 5 = 3 then 3 else 1 := by
  have hsum := dataCount_add_padCount n
  split_ifs <;> omega

/-- R131: the count is in the validator's legal set. -/
theorem padCount_mem (n : Nat) : padCount n ∈ [0, 1, 3, 4, 6] := by
  rw [padCount_eq]
  split_ifs <;> decide

/-- Settles O39: the encoder's text is ceil(8n / 5) symbols and then padding up to its length, and such a text passes
every check. -/
theorem encodedPaddingIsLegal : Obligations.EncodedPaddingIsLegal := by
  intro b text htext
  obtain ⟨hne, rfl⟩ := (encodeText_eq_ok_iff b text).1 htext
  obtain ⟨vs, hshape, hsymbols, -⟩ := encodeBlocks_spec b
  refine ⟨vs, padCount b.length, hshape, hsymbols, rfl, padCount_eq b.length, fun ic => ?_⟩
  have hbytes : 0 < b.length := List.length_pos_iff.2 hne
  have htotal : (vs.map sym).length + padCount b.length = 8 * ((b.length + 4) / 5) := by
    rw [List.length_map, hsymbols, dataCount_add_padCount]
  rw [hshape]
  exact validateText_append ic (vs.map sym) (padCount b.length) (lookup_isSome_of_mem_map_sym ic vs) (by omega)
    (by omega) (padCount_mem b.length)

end Sys2Proof.Proofs
end

section
/-! PROOFS. The decoder: its output as a number, that it undoes the encoder, that INVALID_CHARACTER never occurs, and the
lengths of its output and of valid texts (spec 42_decoder.md R141 to R150). -/

namespace Sys2Proof.Proofs

open Sys2Proof.Machine

/-! ### The output as a number, and the round trip -/

/-- R141, R142: a text decodes to what its data region unpacks to, once it validates. -/
theorem decodeText_eq_ok_iff (ic : Bool) (s out : List Byte) :
    decodeText ic s = .ok out ↔ validateText ic s = true ∧ unpack ic (dataRegion s) 0 0 0 = .ok out := by
  rw [decodeText]
  split <;> simp [*]

/-- R144, R146: the output's number is the number the data symbols spell, less the residual bits. -/
theorem bytesValue_of_decodeText (ic : Bool) (s out : List Byte) (h : decodeText ic s = .ok out) :
    bytesValue out = symbolsValue (textValues ic (dataRegion s)) / 2 ^ (5 * firstPad s % 8) := by
  obtain ⟨-, hunpack⟩ := (decodeText_eq_ok_iff ic s out).1 h
  have hlength : (dataRegion s).length = firstPad s := List.length_take_of_le (firstPad_le s)
  simpa [hlength] using unpack_value ic (dataRegion s) 0 0 0 out (by decide) (by decide) hunpack

theorem textValues_map_sym (ic : Bool) (vs : List (BitVec 5)) : textValues ic (vs.map sym) = vs := by
  have hvalue : lookup ic ∘ sym = some := funext (lookup_sym ic)
  rw [textValues, List.filterMap_map, hvalue, List.filterMap_some]

/-- R125, R131: the data symbols of a text have as many bits as the input, and fewer than 8 residual bits, all zero. -/
theorem encodeBlocks_data (ic : Bool) (b : List Byte) :
    firstPad (encodeBlocks b) = (8 * b.length + 4) / 5 ∧
    symbolsValue (textValues ic (dataRegion (encodeBlocks b))) =
      bytesValue b * 2 ^ (5 * firstPad (encodeBlocks b) % 8) := by
  obtain ⟨vs, hshape, hsymbols, hvalue⟩ := encodeBlocks_spec b
  have hnotPad : ∀ c ∈ vs.map sym, isPad c = false := fun c hc =>
    isPad_of_lookup ic c (lookup_isSome_of_mem_map_sym ic vs c hc)
  have hfirst : firstPad (encodeBlocks b) = vs.length := by
    rw [hshape, firstPad_append _ _ hnotPad, List.length_map]
  have hresidual : 5 * vs.length - 8 * b.length = 5 * vs.length % 8 := by omega
  refine ⟨hfirst.trans hsymbols, ?_⟩
  rw [hfirst, ← hresidual, ← hvalue, hshape, dataRegion_append _ _ hnotPad, textValues_map_sym]

/-- Settles O48: the text validates, so it decodes; the output has the input's length and, the residual bits being
zero, the input's number. -/
theorem decodeOfEncodedTextIsTheInput : Obligations.DecodeOfEncodedTextIsTheInput := by
  intro b ic hlen
  have htext := encodeText_of_ne_nil b (List.length_pos_iff.1 hlen)
  obtain ⟨-, -, -, -, -, -, hvalid⟩ := encodedPaddingIsLegal b _ htext
  obtain ⟨out, hout⟩ := decodeText_of_valid ic _ (hvalid ic)
  obtain ⟨hfirst, hsymbols⟩ := encodeBlocks_data ic b
  have hlength : out.length = b.length := by
    rw [decodeText_length ic _ out hout, hfirst]; omega
  have hnumber : bytesValue out = bytesValue b := by
    rw [bytesValue_of_decodeText ic _ out hout, hsymbols, Nat.mul_div_cancel _ (by positivity)]
  exact ⟨_, htext, bytes_eq_of_value out b hlength hnumber ▸ hout⟩

/-! ### The error that never occurs -/

/-- R141, R147: validation is the one check of the decoder that fails. -/
theorem decodeText_ne_invalidCharacter (ic : Bool) (s : List Byte) (pos : Nat) (ch : Byte) :
    decodeText ic s ≠ .error (.invalidCharacter pos ch) := by
  rcases decodeText_cases ic s with ⟨-, out, hok⟩ | ⟨-, herror⟩
  · simp [hok]
  · simp [herror]

theorem commandResult_ne_invalidCharacter (s : State) (pos : Nat) (ch : Byte) :
    commandResult s ≠ .err (.invalidCharacter pos ch) := by
  rcases commandResult_cases s with ⟨-, hr⟩ | ⟨-, -, hr⟩ | ⟨-, ⟨-, -, hr⟩ | ⟨-, -, text, -, -, hr⟩ | ⟨-, -, hr⟩ |
    ⟨-, -, out, -, -, hr⟩ | ⟨-, hr⟩⟩
  all_goals simp [hr]

/-- R187, R201: code 3 is that of INVALID_CHARACTER and of no other result. -/
theorem result_commit_ne_three (r : CommandResult) (s : State)
    (hr : ∀ pos ch, r ≠ .err (.invalidCharacter pos ch)) : (commit r s).result ≠ 3 := by
  cases r with
  | ok bytes => simp [commit, commitBytes]
  | verdict v => simp [commit, commitVerdict]
  | err e =>
    cases e with
    | invalidCharacter pos ch => exact absurd rfl (hr pos ch)
    | emptyInput | invalidFormat | badCommand | capacity => simp [commit, commitError, errorCode]

/-- Settles O45: no command computes INVALID_CHARACTER, and no other result is reported by code 3. -/
theorem invalidCharacterNeverOccurs : Obligations.InvalidCharacterNeverOccurs := by
  refine ⟨decodeText_ne_invalidCharacter, fun s hbusy => ?_⟩
  rw [engineTurn_of_busy s hbusy]
  exact result_commit_ne_three _ s (commandResult_ne_invalidCharacter s)

/-! ### The lengths of a valid text and of its output -/

/-- R162, R165, R166: a valid text's length is that of its data and a legal number of '=', a multiple of 8 in all, since
check 5 leaves the '=' at the end alone. -/
theorem length_of_valid (ic : Bool) (s : List Byte) (h : validateText ic s = true) :
    s.length = firstPad s + padSpan s ∧ s.length % 8 = 0 ∧ padSpan s ∈ [0, 1, 3, 4, 6] := by
  simp only [validateText, Bool.and_eq_true, Bool.not_eq_true'] at h
  obtain ⟨⟨⟨⟨⟨-, hlength⟩, -⟩, -⟩, hinner⟩, hcount⟩ := h
  have hnotPad : ∀ c ∈ s.takeWhile fun c => !isPad c, isPad c = false := fun c hc => by
    simpa using List.mem_takeWhile_imp hc
  have hsuffix := padding_suffix s hinner
  refine ⟨?_, ?_, ?_⟩
  · rw [hsuffix, firstPad_append _ _ hnotPad, padSpan_append _ _ hnotPad, List.length_append, List.length_replicate]
  · simp only [rejectsLength, Bool.or_eq_false_iff, decide_eq_false_iff_not, not_not] at hlength
    exact hlength.2
  · simpa only [rejectsPadCount, Bool.not_eq_false', decide_eq_true_eq] using hcount

/-- Settles O46: the text's length is a multiple of 8, so each legal number of '=' fixes the data length mod 8. -/
theorem decodedLength : Obligations.DecodedLength := by
  intro ic s hvalid
  obtain ⟨out, hout⟩ := decodeText_of_valid ic s hvalid
  obtain ⟨hlength, hmul, hcount⟩ := length_of_valid ic s hvalid
  have houtLen := decodeText_length ic s out hout
  refine ⟨out, firstPad s, hout, rfl, houtLen, ?_⟩
  simp only [List.mem_cons, List.not_mem_nil, or_false] at hcount
  rcases hcount with hpad | hpad | hpad | hpad | hpad
  · exact .inl (by omega)
  · exact .inr (.inl (by omega))
  · exact .inr (.inr (.inl (by omega)))
  · exact .inr (.inr (.inr (.inl (by omega))))
  · exact .inr (.inr (.inr (.inr (by omega))))

end Sys2Proof.Proofs
end

section
/-! PROOFS. The validator: the closed form of its verdict, the padding checks by the indices of '=', and how the verdict
depends on IGNORE_CASE (spec 43_validator.md R161 to R172). -/

namespace Sys2Proof.Proofs

open Sys2Proof.Machine

/-! ### What a check that passes says -/

theorem rejectsLength_eq_false_iff (s : List Byte) :
    rejectsLength s = false ↔ 0 < s.length ∧ s.length % 8 = 0 := by
  simp [rejectsLength, List.length_pos_iff]

theorem rejectsCharacter_eq_false_iff (ic : Bool) (s : List Byte) :
    rejectsCharacter ic s = false ↔ ∀ c ∈ s, isPad c = false → (lookup ic c).isSome := by
  simp [rejectsCharacter, Option.isSome_iff_ne_none]

theorem rejectsPadCount_eq_false_iff (s : List Byte) :
    rejectsPadCount s = false ↔ padSpan s ∈ [0, 1, 3, 4, 6] := by
  rw [rejectsPadCount, Bool.not_eq_false', decide_eq_true_iff]

/-! ### The closed form -/

/-- R168: checks 4, 5 and 6 leave characters that have a value and then a legal number of '='. -/
theorem exists_data_append_padding (ic : Bool) (s : List Byte) (hchar : rejectsCharacter ic s = false)
    (hinner : rejectsInnerPad s = false) (hcount : rejectsPadCount s = false) :
    ∃ (d : List Byte) (n : Nat), s = d ++ List.replicate n padByte ∧ (∀ c ∈ d, (lookup ic c).isSome) ∧
      n ∈ [0, 1, 3, 4, 6] := by
  have hnotPad : ∀ c ∈ s.takeWhile fun c => !isPad c, isPad c = false := fun c hc => by
    simpa using List.mem_takeWhile_imp hc
  have hsuffix := padding_suffix s hinner
  refine ⟨_, _, hsuffix, fun c hc => ?_, ?_⟩
  · exact (rejectsCharacter_eq_false_iff ic s).1 hchar c ((List.takeWhile_sublist _).subset hc) (hnotPad c hc)
  · rw [rejectsPadCount_eq_false_iff, hsuffix, padSpan_append _ _ hnotPad] at hcount
    exact hcount

/-- R168, R169: checks 2, 4, 5 and 6 decide the verdict; what they leave passes checks 1 and 3 too. -/
theorem validateText_iff_checks (ic : Bool) (s : List Byte) :
    validateText ic s = true ↔ rejectsLength s = false ∧ rejectsCharacter ic s = false ∧
      rejectsInnerPad s = false ∧ rejectsPadCount s = false := by
  constructor
  · intro h
    simp only [validateText, Bool.and_eq_true, Bool.not_eq_true'] at h
    obtain ⟨⟨⟨⟨⟨-, hlength⟩, -⟩, hchar⟩, hinner⟩, hcount⟩ := h
    exact ⟨hlength, hchar, hinner, hcount⟩
  · rintro ⟨hlength, hchar, hinner, hcount⟩
    obtain ⟨d, n, rfl, hd, hn⟩ := exists_data_append_padding ic s hchar hinner hcount
    obtain ⟨hpos, hmul⟩ := (rejectsLength_eq_false_iff _).1 hlength
    simp only [List.length_append, List.length_replicate] at hpos hmul
    exact validateText_append ic d n hd hpos hmul hn

/-- Settles O41: a text that validates has the form checks 4, 5 and 6 leave, and a text of that form passes all six. -/
theorem validateClosedForm : Obligations.ValidateClosedForm := by
  intro ic s
  constructor
  · intro hvalid
    obtain ⟨hlength, hchar, hinner, hcount⟩ := (validateText_iff_checks ic s).1 hvalid
    obtain ⟨hpos, hmul⟩ := (rejectsLength_eq_false_iff s).1 hlength
    obtain ⟨d, p, hs, hd, hp⟩ := exists_data_append_padding ic s hchar hinner hcount
    exact ⟨hpos, hmul, d, p, hs, fun c hc => Option.isSome_iff_ne_none.1 (hd c hc), by simpa using hp⟩
  · rintro ⟨hpos, hmul, d, p, rfl, hd, hp⟩
    simp only [List.length_append, List.length_replicate] at hpos hmul
    exact validateText_append ic d p (fun c hc => Option.isSome_iff_ne_none.2 (hd c hc)) hpos hmul (by simpa using hp)

/-- Settles O42: the four checks decide the verdict. -/
theorem blankAndEarlyPadChecksAreRedundant : Obligations.BlankAndEarlyPadChecksAreRedundant := by
  intro ic s
  rw [Bool.eq_iff_iff, validateText_iff_checks]
  simp only [Bool.and_eq_true, Bool.not_eq_true', and_assoc]

/-! ### The indices of '=' -/

/-- The least index of '=' is the one a search from the front finds (R142, R166). -/
theorem findIdx_isPad_eq (s : List Byte) (f : Nat) (hpad : s[f]? = some padByte)
    (hleast : ∀ i, s[i]? = some padByte → f ≤ i) : s.findIdx isPad = f := by
  obtain ⟨hlt, hget⟩ := List.getElem?_eq_some_iff.1 hpad
  refine (List.findIdx_eq hlt).2 ⟨hget ▸ isPad_padByte, fun i hi => ?_⟩
  refine Bool.eq_false_iff.2 fun hi' => ?_
  have := hleast i (List.getElem?_eq_some_iff.2 ⟨by omega, (isPad_iff _).1 hi'⟩)
  omega

/-- The greatest index of '=' is the least one from the end (R166). -/
theorem lastPad_eq (s : List Byte) (l : Nat) (hpad : s[l]? = some padByte)
    (hgreatest : ∀ i, s[i]? = some padByte → i ≤ l) : lastPad s = l := by
  have hlt : l < s.length := (List.getElem?_eq_some_iff.1 hpad).1
  have hback : s.reverse.findIdx isPad = s.length - 1 - l := by
    refine findIdx_isPad_eq s.reverse _ ?_ fun i hi => ?_
    · rw [List.getElem?_reverse (by omega), Nat.sub_sub_self (by omega), hpad]
    · have hi' : i < s.length := by simpa using (List.getElem?_eq_some_iff.1 hi).1
      rw [List.getElem?_reverse hi'] at hi
      have := hgreatest _ hi
      omega
  rw [lastPad, hback]; omega

theorem getElem?_firstPad (s : List Byte) (h : firstPad s < s.length) : s[firstPad s]? = some padByte :=
  List.getElem?_eq_some_iff.2 ⟨h, (isPad_iff _).1 List.findIdx_getElem⟩

theorem firstPad_le_of_getElem? (s : List Byte) (f : Nat) (hpad : s[f]? = some padByte) : firstPad s ≤ f := by
  obtain ⟨hlt, hget⟩ := List.getElem?_eq_some_iff.1 hpad
  refine Nat.le_of_not_lt fun hf => ?_
  have := List.not_of_lt_findIdx hf
  rw [hget] at this
  simp at this

/-- R166: a text without '=' has P = 0. -/
theorem padSpan_of_not_mem (s : List Byte) (h : padByte ∉ s) : padSpan s = 0 := by
  have hany : ¬ s.any isPad = true := by simpa [isPad_iff] using h
  rw [padSpan, if_neg hany]

/-- R166: P spans the least and the greatest index of '='. -/
theorem padSpan_eq (s : List Byte) (f l : Nat) (hf : s[f]? = some padByte) (hl : s[l]? = some padByte)
    (hbounds : ∀ i, s[i]? = some padByte → f ≤ i ∧ i ≤ l) : padSpan s = l - f + 1 := by
  have hany : s.any isPad = true := List.any_eq_true.2 ⟨padByte, List.mem_of_getElem? hf, isPad_padByte⟩
  have hfirst : firstPad s = f := findIdx_isPad_eq s f hf fun i hi => (hbounds i hi).1
  rw [padSpan, if_pos hany, hfirst, lastPad_eq s l hl fun i hi => (hbounds i hi).2]

/-- R165: check 5 looks at the characters from the first '=' on. -/
theorem rejectsInnerPad_iff_drop (s : List Byte) :
    rejectsInnerPad s = true ↔ ∃ (j : Nat) (c : Byte), firstPad s ≤ j ∧ s[j]? = some c ∧ c ≠ padByte := by
  have hdrop : s.dropWhile (fun c => !isPad c) = s.drop (firstPad s) := by
    simp [List.dropWhile_eq_drop_findIdx_not, firstPad]
  rw [rejectsInnerPad, hdrop, List.any_eq_true]
  constructor
  · rintro ⟨c, hc, hnotPad⟩
    obtain ⟨i, hi⟩ := List.mem_iff_getElem?.1 hc
    rw [List.getElem?_drop] at hi
    exact ⟨firstPad s + i, c, by omega, hi, by simpa [isPad] using hnotPad⟩
  · rintro ⟨j, c, hj, hc, hne⟩
    refine ⟨c, List.mem_iff_getElem?.2 ⟨j - firstPad s, ?_⟩, by simpa [isPad] using hne⟩
    rw [List.getElem?_drop, Nat.add_sub_cancel' hj, hc]

/-- R165: check 5 by two indices; the first '=' serves for the lower one. -/
theorem rejectsInnerPad_iff (s : List Byte) :
    rejectsInnerPad s = true ↔
      ∃ (f j : Nat) (c : Byte), f < j ∧ s[f]? = some padByte ∧ s[j]? = some c ∧ c ≠ padByte := by
  rw [rejectsInnerPad_iff_drop]
  constructor
  · rintro ⟨j, c, hj, hc, hne⟩
    have hlt : j < s.length := (List.getElem?_eq_some_iff.1 hc).1
    have hpad := getElem?_firstPad s (by omega)
    have hdistinct : firstPad s ≠ j := by
      rintro rfl
      exact hne (Option.some.inj (hc.symm.trans hpad))
    exact ⟨firstPad s, j, c, by omega, hpad, hc, hne⟩
  · rintro ⟨f, j, c, hfj, hf, hc, hne⟩
    have hle := firstPad_le_of_getElem? s f hf
    exact ⟨j, c, by omega, hc, hne⟩

/-- R165: when check 5 passes, every character after a '=' is one, so the last '=' ends the text. -/
theorem greatest_pad_eq_of_not_rejectsInnerPad (s : List Byte) (l : Nat) (h : rejectsInnerPad s = false)
    (hl : s[l]? = some padByte) (hgreatest : ∀ i, s[i]? = some padByte → i ≤ l) : l = s.length - 1 := by
  have hlt : l < s.length := (List.getElem?_eq_some_iff.1 hl).1
  by_contra hne
  have hnext : s[l + 1]? = some (s[l + 1]'(by omega)) := List.getElem?_eq_getElem _
  have hnotPad : s[l + 1]'(by omega) ≠ padByte := fun hpad => by
    have := hgreatest (l + 1) (hnext.trans (congrArg some hpad))
    omega
  exact Bool.eq_false_iff.1 h ((rejectsInnerPad_iff s).2 ⟨l, l + 1, _, by omega, hl, hnext, hnotPad⟩)

/-- Settles O43: check 5 by two indices, P by the least and greatest index, and the last '=' at the end of the text. -/
theorem paddingChecksByIndices : Obligations.PaddingChecksByIndices := by
  intro s
  refine ⟨rejectsInnerPad_iff s, fun hnone => ?_, fun f l hf hl hbounds => ⟨?_, fun hinner => ?_⟩⟩
  · rw [rejectsPadCount_eq_false_iff, padSpan_of_not_mem s hnone]
    decide
  · rw [← not_iff_not, not_not, Bool.not_eq_true, rejectsPadCount_eq_false_iff, padSpan_eq s f l hf hl hbounds]
    simp
  · have hlt : l < s.length := (List.getElem?_eq_some_iff.1 hl).1
    have hle : f ≤ l := (hbounds l hl).1
    have hend := greatest_pad_eq_of_not_rejectsInnerPad s l hinner hl fun i hi => (hbounds i hi).2
    omega

/-! ### The verdict and IGNORE_CASE -/

/-- R105: the two lookups agree on a byte that is no lower-case letter. -/
theorem lookup_eq_of_not_lowerCase (c : Byte) (h : ¬(0x61 ≤ c.toNat ∧ c.toNat ≤ 0x7A)) :
    lookup false c = lookup true c := by
  rw [lookup_false, lookup_true, fold_of_not_lowerCase c h]

/-- R164: check 4 sees no difference in a text without lower-case letters. -/
theorem rejectsCharacter_eq_of_not_lowerCase (s : List Byte)
    (h : ∀ c ∈ s, ¬(0x61 ≤ c.toNat ∧ c.toNat ≤ 0x7A)) : rejectsCharacter false s = rejectsCharacter true s := by
  rw [rejectsCharacter, rejectsCharacter, Bool.eq_iff_iff, List.any_eq_true, List.any_eq_true]
  refine exists_congr fun c => and_congr_right fun hc => ?_
  rw [lookup_eq_of_not_lowerCase c (h c hc)]

/-- R164: case-sensitive, check 4 rejects a lower-case letter: it is no '=' and has no value. -/
theorem not_validateText_of_lowerCase (s : List Byte) (c : Byte) (hc : c ∈ s)
    (h : 0x61 ≤ c.toNat ∧ c.toNat ≤ 0x7A) : validateText false s = false := by
  refine Bool.eq_false_iff.2 fun hvalid => ?_
  have hnotPad : isPad c = false := Bool.eq_false_iff.2 fun hpad => by
    rw [(isPad_iff c).1 hpad] at h
    exact absurd h (by decide)
  have hvalue := lookup_of_valid false s hvalid c hc hnotPad
  rw [lookup_false, inv_eq_none c (by omega) (by omega)] at hvalue
  cases hvalue

/-- Settles O44: IGNORE_CASE reaches the verdict through check 4 alone. -/
theorem verdictDependsOnCaseThroughLetters : Obligations.VerdictDependsOnCaseThroughLetters := by
  intro s
  refine ⟨fun hnone => ?_, fun ⟨c, hc, hlower⟩ => not_validateText_of_lowerCase s c hc hlower⟩
  rw [validateText, validateText, rejectsCharacter_eq_of_not_lowerCase s hnone]

end Sys2Proof.Proofs
end

section
/-! PROOFS. Acceptance and completion of a command: what a CTRL write stores and starts while idle, and what a commit
writes and leaves alone (spec 44_command.md R180 to R186). -/

namespace Sys2Proof.Proofs

open Sys2Proof.Machine

/-! ### Acceptance -/

/-- Bits [2:0] of a word are what its write stores in CTRL, and CTRL reads them back (R24 to R27, R180). -/
theorem ctrlWord_storeCtrl_of_word (w : Word) (s : State) :
    ctrlWord (storeCtrl (Op.ofBits (w.extractLsb' 0 2)) (w.getLsbD 2) s) = w &&& 0x7#32 := by
  refine BitVec.eq_of_getLsbD_eq fun j hj => ?_
  have hmask : (0x7#32).getLsbD j = decide (j < 3) := by
    rw [BitVec.getLsbD_ofNat, Nat.testBit_two_pow_sub_one 3 j]; simp [hj]
  rw [ctrlWord_getLsbD, BitVec.getLsbD_and, hmask]
  rcases show j < 2 ∨ j = 2 ∨ 3 ≤ j by omega with hop | rfl | hreserved
  · have h3 : j < 3 := by omega
    simp [hop, h3]
  · simp
  · have h3 : ¬ j < 2 ∧ j ≠ 2 ∧ ¬ j < 3 := by omega
    simp [h3]

/-- Settles O8: a word with START clear stores its two fields in an idle block, and a busy block drops it. -/
theorem cfgStoresOpAndIgnoreCase : Obligations.CfgStoresOpAndIgnoreCase := by
  refine fun w s hcfg => ⟨fun hidle => ?_, exec_of_busy _ s⟩
  have hexec := exec_decodeCommand_of_idle w s hidle
  rw [hcfg] at hexec
  exact ⟨_, hexec, rfl, ctrlWord_storeCtrl_of_word w s⟩

/-- Settles O9: an idle block accepts every word with START set, since acceptance looks at BUSY alone, and a busy
block drops it. -/
theorem startIsAcceptedInOneStep : Obligations.StartIsAcceptedInOneStep := by
  refine fun w s hstart => ⟨fun hidle => ?_, exec_of_busy _ s⟩
  have hexec := exec_decodeCommand_of_idle w s hidle
  rw [hstart] at hexec
  exact hexec

/-! ### Commits -/

/-- Every commit sets the flags and result registers by `flagsAtCompletion`, so this says what each one wrote. -/
theorem flagsAtCompletion_completedWith (v : Bool) (r : BitVec 4) (n p c : Word) (s : State) :
    CompletedWith (flagsAtCompletion v r n p c s) v r n p c :=
  ⟨rfl, rfl, rfl, rfl, rfl, rfl, rfl⟩

theorem flagsAtCompletion_sameOut (v : Bool) (r : BitVec 4) (n p c : Word) (s : State) :
    SameOut s (flagsAtCompletion v r n p c s) := fun _ => rfl

/-- STATUS after a completion: DONE without BUSY, beside the committed RESULT and VERDICT (R29 to R33). -/
theorem statusWord_of_completedWith {t : State} {v : Bool} {r : BitVec 4} {n p c : Word}
    (h : CompletedWith t v r n p c) :
    statusWord t = 0#24 ++ r ++ 0#1 ++ BitVec.ofBool v ++ BitVec.ofBool true ++ BitVec.ofBool false := by
  obtain ⟨hbusy, hdone, hverdict, hresult, -, -, -⟩ := h
  simp only [statusWord, hbusy, hdone, hverdict, hresult]

/-- The commit of output bytes that fit OUT reports their number in OUT_LEN: 32 bits hold it (R10, R11). -/
theorem outLen_commit_ok_toNat (bytes : List Byte) (s : State) (hfit : bytes.length ≤ outCap s.cfg)
    (hc : s.cfg.wf) : (commit (.ok bytes) s).outLen.toNat = bytes.length :=
  toNat_ofNat_of_le_outCap s.cfg bytes.length hc hfit

/-- Settles O16: both commits set the registers by `flagsAtCompletion` and keep the frame of every commit; only the
first writes OUT, and its length fits OUT_LEN. -/
theorem successCommitWritesResultAndOut : Obligations.SuccessCommitWritesResultAndOut := by
  refine fun s bytes v => ⟨fun hfit hc => ⟨?_, ?_, ?_, ?_⟩, ?_, ?_, ?_⟩
  · exact outLen_commit_ok_toNat bytes s hfit hc
  · exact flagsAtCompletion_completedWith ..
  · exact commitBytes_out bytes s
  · exact commit_frame (.ok bytes) s
  · exact flagsAtCompletion_completedWith ..
  · exact flagsAtCompletion_sameOut v 0 0 0 0 s
  · exact commit_frame (.verdict v) s

/-! ### RESERVED_OP -/

/-- A word that matches RESERVED_OP's row of the opcode map has START set and OP = 0b11. -/
theorem start_and_op_of_reserved_row (w : Word) (h : w &&& 0x103#32 = 0x103#32) :
    w.getLsbD 8 = true ∧ w.extractLsb' 0 2 = 0b11#2 := by
  constructor
  · have hbit := congrArg (·.getLsbD 8) h
    simpa using hbit
  · have hbits := congrArg (·.extractLsb' 0 2) h
    rw [BitVec.extractLsb'_and] at hbits
    exact BitVec.and_allOnes.symm.trans hbits

theorem decodeCommand_of_reserved_row (w : Word) (h : w &&& 0x103#32 = 0x103#32) :
    decodeCommand w = .reservedOp (w.getLsbD 2) := by
  obtain ⟨hstart, hop⟩ := start_and_op_of_reserved_row w h
  obtain ⟨-, -, -, hreserved⟩ := (wordsDecodeByStartAndOp w).2 hstart
  exact hreserved hop

theorem exec_reservedOp_of_idle (ic : Bool) (s : State) (hidle : s.busy = false) :
    exec (.reservedOp ic) s = .next (acceptCommand .reserved ic s) :=
  congrArg Host.Outcome.next (startCommand_of_idle .reserved ic s hidle)

/-- The completion of RESERVED_OP commits BAD_COMMAND and looks at no other operand, so BAD_COMMAND comes before
CAPACITY (R185, R207). -/
theorem engineTurn_of_reserved (t : State) (hbusy : t.busy = true) (hop : t.op = .reserved) :
    engineTurn t = commit (.err .badCommand) t := by
  rw [engineTurn_of_busy t hbusy, commandResult, hop, reservedResult]

/-- What the commit of BAD_COMMAND writes (R187): its code, and 0 in the other result registers. -/
theorem commit_badCommand (s : State) : commit (.err .badCommand) s = flagsAtCompletion false 4 0 0 0 s := rfl

/-- Settles O15: the word is RESERVED_OP's, its acceptance leaves OP = 0b11 and the block busy, and its completion
commits BAD_COMMAND, which writes the flags and result registers alone. -/
theorem reservedOpReportsBadCommand : Obligations.ReservedOpReportsBadCommand := by
  refine fun w s hrow hidle => ⟨decodeCommand_of_reserved_row w hrow, ?_⟩
  have hframe := commit_frame (.err .badCommand) (acceptCommand .reserved (w.getLsbD 2) s)
  rw [commit_badCommand] at hframe
  have hop := hframe.op
  have hcompleted := flagsAtCompletion_completedWith false 4 0 0 0 (acceptCommand .reserved (w.getLsbD 2) s)
  exact ⟨_, _, exec_reservedOp_of_idle _ s hidle, rfl, rfl, engineTurn_of_reserved _ rfl rfl, hcompleted,
    flagsAtCompletion_sameOut false 4 0 0 0 _, hframe, hop, congrArg Op.bits hop,
    statusWord_of_completedWith hcompleted⟩

end Sys2Proof.Proofs
end

section
/-! PROOFS. The code that a completion reports, in the priority of R207, and what an error's commit writes beside it
(spec 60_exceptions.md R200 to R207). -/

namespace Sys2Proof.Proofs

open Sys2Proof.Machine

/-! ### The code of a commit -/

@[simp] theorem result_commit_ok (bytes : List Byte) (s : State) : (commit (.ok bytes) s).result = 0 := rfl

@[simp] theorem result_commit_verdict (v : Bool) (s : State) : (commit (.verdict v) s).result = 0 := rfl

@[simp] theorem result_commit_err (e : CommandError) (s : State) : (commit (.err e) s).result = errorCode e := by
  cases e with
  | invalidCharacter pos ch => rfl
  | emptyInput | invalidFormat | badCommand | capacity => rfl

/-- R187, R208: the errors that carry no character commit their code, and 0 in the other result registers. -/
theorem commit_err (e : CommandError) (s : State) (he : ∀ pos ch, e ≠ .invalidCharacter pos ch) :
    commit (.err e) s = flagsAtCompletion false (errorCode e) 0 0 0 s := by
  cases e with
  | invalidCharacter pos ch => exact absurd rfl (he pos ch)
  | emptyInput | invalidFormat | badCommand | capacity => rfl

/-- A code other than 0 is that of an error's commit, so it comes with no other record and OUT as before; the error
that does record more is excluded. -/
theorem commit_of_result_ne_zero (r : CommandResult) (s : State)
    (hr : ∀ pos ch, r ≠ .err (.invalidCharacter pos ch)) (hcode : (commit r s).result ≠ 0) :
    CompletedWith (commit r s) false (commit r s).result 0 0 0 ∧ SameOut s (commit r s) := by
  cases r with
  | ok bytes => exact absurd (result_commit_ok bytes s) hcode
  | verdict v => exact absurd (result_commit_verdict v s) hcode
  | err e =>
    rw [result_commit_err, commit_err e s fun pos ch he => hr pos ch (congrArg _ he)]
    exact ⟨flagsAtCompletion_completedWith .., flagsAtCompletion_sameOut false (errorCode e) 0 0 0 s⟩

/-! ### The result of each operation -/

/-- R205, R207: CAPACITY comes before the errors of the codec. -/
theorem commandResult_of_overCapacity (s : State) (hop : s.op ≠ .reserved) (hcap : s.cfg.inCap < s.inLen.toNat) :
    commandResult s = .err .capacity := by
  have hover : overCapacity s = true := decide_eq_true hcap
  cases ho : s.op with
  | reserved => exact absurd ho hop
  | encode => simp only [commandResult, ho, encodeResult, hover, if_true]
  | decode => simp only [commandResult, ho, decodeResult, hover, if_true]
  | validate => simp only [commandResult, ho, validateResult, hover, if_true]

section
variable (s : State) (hcap : s.inLen.toNat ≤ s.cfg.inCap)
include hcap

theorem overCapacity_eq_false : overCapacity s = false := decide_eq_false (Nat.not_lt.2 hcap)

theorem commandResult_of_encode (hop : s.op = .encode) :
    commandResult s = resultOf (encodeText (commandInput s)) := by
  simp [commandResult, hop, encodeResult, overCapacity_eq_false s hcap]

theorem commandResult_of_decode (hop : s.op = .decode) :
    commandResult s = resultOf (decodeText s.ignoreCase (commandInput s)) := by
  simp [commandResult, hop, decodeResult, overCapacity_eq_false s hcap]

theorem commandResult_of_validate (hop : s.op = .validate) :
    commandResult s = .verdict (validateText s.ignoreCase (commandInput s)) := by
  simp [commandResult, hop, validateResult, overCapacity_eq_false s hcap]

end

/-! ### The code of each codec function -/

/-- R201: the encoder fails on no bytes and on nothing else. -/
theorem result_commit_encodeText (b : List Byte) (s : State) :
    (commit (resultOf (encodeText b)) s).result = if b = [] then 1 else 0 := by
  by_cases hb : b = []
  · simp [hb, resultOf, errorCode]
  · simp [hb, encodeText_of_ne_nil b hb, resultOf]

/-- R202: the decoder fails on the texts that do not validate and on nothing else. -/
theorem result_commit_decodeText (ic : Bool) (text : List Byte) (s : State) :
    (commit (resultOf (decodeText ic text)) s).result = if validateText ic text then 0 else 2 := by
  rcases decodeText_cases ic text with ⟨hvalid, out, hok⟩ | ⟨hvalid, herror⟩
  · simp [hvalid, hok, resultOf]
  · simp [hvalid, herror, resultOf, errorCode]

/-- R161: check 1 rejects the empty text. -/
@[simp] theorem validateText_nil (ic : Bool) : validateText ic [] = false := rfl

theorem commandInput_eq_nil_iff (s : State) : commandInput s = [] ↔ s.inLen = 0 := by
  rw [← List.length_eq_zero_iff, commandInput_length, ← BitVec.toNat_inj]
  rfl

/-! ### The completion -/

/-- Settles O18: each operation's result fixes the committed code, BAD_COMMAND before any look at IN_LEN and CAPACITY
before the codec; and since no command computes INVALID_CHARACTER, an error commits its code alone. -/
theorem completionReportsTheFirstError : Obligations.CompletionReportsTheFirstError := by
  intro s hbusy
  rw [engineTurn_of_busy s hbusy]
  have hdecode (hcap : s.inLen.toNat ≤ s.cfg.inCap) (hop : s.op = .decode) :
      (commit (commandResult s) s).result = if validateText s.ignoreCase (commandInput s) then 0 else 2 := by
    rw [commandResult_of_decode s hcap hop, result_commit_decodeText]
  refine ⟨⟨fun hop => ?_, fun hop hcap => ?_, fun hcap =>
    ⟨fun hop => ?_, hdecode hcap, fun hop hlen => ?_, fun hop => ?_⟩⟩,
    commit_of_result_ne_zero _ s (commandResult_ne_invalidCharacter s)⟩
  · rw [← engineTurn_of_busy s hbusy, engineTurn_of_reserved s hbusy hop, result_commit_err, errorCode]
  · rw [commandResult_of_overCapacity s hop hcap, result_commit_err, errorCode]
  · rw [commandResult_of_encode s hcap hop, result_commit_encodeText]
    simp only [commandInput_eq_nil_iff]
  · rw [hdecode hcap hop, (commandInput_eq_nil_iff s).2 hlen, validateText_nil]
    rfl
  · rw [commandResult_of_validate s hcap hop, result_commit_verdict]

end Sys2Proof.Proofs
end

section
/-! PROOFS. The command word and the command it stands for: each is read off the other, the ignored bits aside (spec
30_encoding.md R81 to R84 and section 4). -/

namespace Sys2Proof.Proofs

open Sys2Proof.Machine

/-! ### The fields of a command word -/

theorem commandWord_start (start : Bool) (op : Op) (ic : Bool) :
    (commandWord start op ic).getLsbD 8 = start := commandWord_getLsbD start op ic 8

theorem commandWord_ignoreCase (start : Bool) (op : Op) (ic : Bool) :
    (commandWord start op ic).getLsbD 2 = ic := commandWord_getLsbD start op ic 2

theorem commandWord_op (start : Bool) (op : Op) (ic : Bool) :
    (commandWord start op ic).extractLsb' 0 2 = op.bits := by
  refine BitVec.eq_of_getLsbD_eq fun j hj => ?_
  simp [commandWord_getLsbD, hj]

/-! ### From a command to its word and back -/

/-- A command is what its own word decodes to: START, OP and IGNORE_CASE name it (R82). -/
theorem decodeCommand_encodeCommand (i : Instr) : decodeCommand (encodeCommand i) = i := by
  cases i with
  | cfg op ic =>
    simp only [encodeCommand, decodeCommand, commandWord_start, commandWord_op, commandWord_ignoreCase, ofBits_bits,
      Bool.false_eq_true, if_false]
  | encode ic | decode ic | validate ic | reservedOp ic =>
    simp only [encodeCommand, decodeCommand, commandWord_start, commandWord_op, commandWord_ignoreCase, ofBits_bits,
      if_true]

/-- Two words that agree on the bits the decoder reads decode alike (R84). -/
theorem decodeCommand_congr {v w : Word} (h : v &&& 0x00000107#32 = w &&& 0x00000107#32) :
    decodeCommand v = decodeCommand w := by
  rw [← decodeCommand_mask v, h, decodeCommand_mask]

/-- Settles O3: the ignored bits are none of those the decoder reads, and a command's own word decodes to it. -/
theorem decodeOfEncodeIsTheCommand : Obligations.DecodeOfEncodeIsTheCommand := by
  intro i junk _
  have hread : (encodeCommand i ||| (junk &&& 0xFFFFFEF8#32)) &&& 0x00000107#32 =
      encodeCommand i &&& 0x00000107#32 := by
    have hdisjoint : 0xFFFFFEF8#32 &&& 0x00000107#32 = 0#32 := by decide
    rw [BitVec.and_comm, BitVec.and_or_distrib_left, BitVec.and_comm, BitVec.and_comm _ (junk &&& _),
      BitVec.and_assoc, hdisjoint, BitVec.and_zero, BitVec.or_zero]
  rw [decodeCommand_congr hread, decodeCommand_encodeCommand]

/-! ### From a word to its command and back -/

/-- Whatever a word decodes to, its command's word has the three fields of the word (R81). -/
theorem encodeCommand_decodeCommand (w : Word) :
    encodeCommand (decodeCommand w) =
      commandWord (w.getLsbD 8) (Op.ofBits (w.extractLsb' 0 2)) (w.getLsbD 2) := by
  obtain ⟨hcfg, hstarted⟩ := wordsDecodeByStartAndOp w
  cases hstart : w.getLsbD 8 with
  | false => rw [hcfg hstart, encodeCommand]
  | true =>
    obtain ⟨hencode, hdecode, hvalidate, hreserved⟩ := hstarted hstart
    rcases opBits_cases (w.extractLsb' 0 2) with hop | hop | hop | hop
    · rw [hencode hop, hop]; rfl
    · rw [hdecode hop, hop]; rfl
    · rw [hvalidate hop, hop]; rfl
    · rw [hreserved hop, hop]; rfl

/-- The bits the decoder reads (R81). -/
theorem commandMask_getLsbD (j : Nat) (hj : j < 32) :
    (0x00000107#32).getLsbD j = decide (j < 2 ∨ j = 2 ∨ j = 8) := by
  revert j; decide

/-- Settles O4: the word of the decoded command has the bits the decoder reads where the word has them, and 0
elsewhere. -/
theorem encodeOfDecodeClearsIgnoredBits : Obligations.EncodeOfDecodeClearsIgnoredBits := by
  intro w
  rw [encodeCommand_decodeCommand]
  refine BitVec.eq_of_getLsbD_eq fun j hj => ?_
  rw [commandWord_getLsbD, BitVec.getLsbD_and, commandMask_getLsbD j hj]
  split_ifs with hop hic hstart
  · simp [hop]
  · simp [hic]
  · simp [hstart]
  · simp [hop, hic, hstart]

/-- Settles O1: fifteen fixed words, evaluated. -/
theorem opcodeMapWordsDecode : Obligations.OpcodeMapWordsDecode := by
  unfold Obligations.OpcodeMapWordsDecode
  decide

end Sys2Proof.Proofs
end

section
/-! PROOFS. The invariant of the block: it holds at reset, each operation that a step is made of keeps it, and so does
every step; and what it says of the registers while a command runs (spec 10_state.md sections 3 and 4). -/

namespace Sys2Proof.Proofs

open Sys2Proof.Machine

/-! ### The parameters -/

/-- The opaque IN_CAP of `State.reset` is within the bounds of R10, by the type it is given by. -/
theorem platform_wf : Config.platform.wf := by
  have hlt := Config.platformInCapLessOne.isLt
  constructor
  · exact Nat.le_add_left 1 _
  · exact hlt

theorem engineTurn_cfg (s : State) : (engineTurn s).cfg = s.cfg := by
  cases hbusy : s.busy with
  | true => rw [engineTurn_of_busy s hbusy]; exact (commit_frame _ s).surroundings.cfg
  | false => rw [engineTurn_of_idle s hbusy]

/-- Settles O54: a reset keeps the parameters, and no turn of the engine or access of the host writes them. -/
theorem everyStepKeepsTheParameters : Obligations.EveryStepKeepsTheParameters := by
  intro s t hstep
  rcases step_cases s t hstep with rfl | rfl | rfl | ⟨op, rest, u, d, -, haccess, rfl⟩
  · exact resetBlock_cfg (afterTurn s)
  · exact engineTurn_cfg (afterTurn s)
  · rfl
  · obtain ⟨-, -, -, -, hfinish, -, -⟩ := hostFinish_block op d u
    obtain ⟨-, -, -, hbus⟩ := busAccess_host _ _ u d haccess
    exact hfinish.trans hbus

/-! ### Reset -/

/-- Settles O51: the buffers and the names are empty at reset, the registers 0, and the parameters legal. -/
theorem invariantHoldsAtReset : Obligations.InvariantHoldsAtReset where
  cfgLegal := platform_wf
  inCanonical := ⟨List.Pairwise.nil, nofun⟩
  outCanonical := ⟨List.Pairwise.nil, nofun⟩
  notBusyAndDone := by decide
  clearUntilDone := fun _ => ⟨rfl, rfl, rfl⟩
  noErrorRecord := ⟨rfl, rfl⟩
  resultLegal := by decide
  verdictOnlyOk := nofun
  outLenOnlyOk := fun h => absurd rfl h
  outLenFits := Nat.zero_le _
  namesCanonical := List.Pairwise.nil

section
variable {s : State} (h : State.Inv s)
include h

/-- A reset takes the block to power-on's registers and buffers, and keeps legal parameters and the names. -/
theorem resetBlock_inv : State.Inv (resetBlock s) :=
  { invariantHoldsAtReset with
    cfgLegal := h.cfgLegal
    outLenFits := Nat.zero_le _
    inCanonical := ⟨List.Pairwise.nil, nofun⟩
    outCanonical := ⟨List.Pairwise.nil, nofun⟩
    namesCanonical := h.namesCanonical }

/-! ### Host accesses -/

/-- The invariant reads nothing of what the host has left to do or of who moves next. -/
theorem withHost_inv (program : List HostOp) (schedule : List Turn) :
    State.Inv { s with program := program, schedule := schedule } := { h with }

theorem storeCtrl_inv (o : Op) (ic : Bool) : State.Inv (storeCtrl o ic s) := { h with }

/-- Acceptance clears the result registers with DONE (R181). -/
theorem acceptCommand_inv (o : Op) (ic : Bool) : State.Inv (acceptCommand o ic s) :=
  { h with
    notBusyAndDone := by simp
    clearUntilDone := fun _ => ⟨rfl, rfl, rfl⟩
    noErrorRecord := ⟨rfl, rfl⟩
    resultLegal := by simp
    verdictOnlyOk := nofun
    outLenOnlyOk := fun hlen => absurd rfl hlen
    outLenFits := Nat.zero_le _ }

theorem storeInLen_inv (v : Word) : State.Inv (storeInLen v s) := by
  rw [storeInLen]
  split
  · exact h
  · exact { h with }

/-- A legal write of IN stays within the buffer (R53). -/
theorem storeIn_inv (sz : Size) (i : Nat) (v : Word) (hw : windowAccess s.cfg.inCap i (sizeBytes sz)) :
    State.Inv (storeIn sz i v s) := by
  obtain ⟨hwf, hwithin⟩ := h.inCanonical
  have hcanonical : Memory.wf (storeIn sz i v s).inBuf ∧ Memory.within s.cfg.inCap (storeIn sz i v s).inBuf :=
    ⟨storeIn_wf sz i v s hwf, storeIn_within _ sz i v s hwithin (windowAccess_bound _ _ _ hw)⟩
  rw [storeIn_frame]
  exact { h with inCanonical := hcanonical }

theorem countDraws_inv (sz : Size) : State.Inv (countDraws sz s) := by
  rw [countDraws]
  split
  · exact { h with }
  · exact h

theorem busAccess_inv (r : Request) (t : State) (d : Word) (haccess : busAccess r s = .next (t, d)) :
    State.Inv t := by
  rcases busAccess_cases r s t d haccess with rfl | ⟨-, o, ic, rfl⟩ | ⟨-, o, ic, rfl⟩ | ⟨v, rfl⟩ |
    ⟨sz, i, v, hw, rfl⟩ | ⟨sz, rfl⟩
  · exact h
  · exact storeCtrl_inv h o ic
  · exact acceptCommand_inv h o ic
  · exact storeInLen_inv h v
  · exact storeIn_inv h sz i v hw
  · exact countDraws_inv h sz

theorem bindName_inv (x : Nat) (v : Word) : State.Inv (bindName x v s) :=
  { h with namesCanonical := bindName_names_sorted x v s h.namesCanonical }

theorem hostFinish_inv (op : HostOp) (d : Word) : State.Inv (hostFinish op d s) := by
  cases op with
  | wr off n v => exact h
  | rd off n x => exact bindName_inv h x d
  | rdField off hi lo x => exact bindName_inv h x _
  | poll off mask v =>
    rw [hostFinish]
    split
    · exact h
    · exact withHost_inv h _ _

/-! ### Commits -/

/-- A commit without an error record sets the flags as the invariant has them, given what it asks of the code, the
verdict and OUT_LEN (R31, R32, R35). -/
theorem flagsAtCompletion_inv (v : Bool) (r : BitVec 4) (n : Word) (hlegal : r ∈ [0#4, 1#4, 2#4, 4#4, 5#4])
    (hverdict : v = true → r = 0) (hlen : n ≠ 0 → r = 0 ∧ v = false) (hfit : n.toNat ≤ outCap s.cfg) :
    State.Inv (flagsAtCompletion v r n 0 0 s) :=
  { h with
    notBusyAndDone := by simp
    clearUntilDone := nofun
    noErrorRecord := ⟨rfl, rfl⟩
    resultLegal := hlegal
    verdictOnlyOk := hverdict
    outLenOnlyOk := hlen
    outLenFits := hfit }

/-- The commit of output bytes that fit OUT. -/
theorem commit_ok_inv (bytes : List Byte) (hfit : bytes.length ≤ outCap s.cfg) :
    State.Inv (commit (.ok bytes) s) := by
  obtain ⟨hwf, hwithin⟩ := h.outCanonical
  have hcanonical : Memory.wf (writeBytes s.outBuf 0 bytes) ∧
      Memory.within (outCap s.cfg) (writeBytes s.outBuf 0 bytes) :=
    ⟨writeBytes_wf _ _ _ hwf, writeBytes_within _ _ _ _ hwithin (by rwa [Nat.zero_add])⟩
  have hwritten : State.Inv { s with outBuf := writeBytes s.outBuf 0 bytes } := { h with outCanonical := hcanonical }
  exact flagsAtCompletion_inv hwritten false 0 _ (by decide) (fun _ => rfl) (fun _ => ⟨rfl, rfl⟩)
    ((outLen_commit_ok_toNat bytes s hfit h.cfgLegal).trans_le hfit)

theorem commit_verdict_inv (v : Bool) : State.Inv (commit (.verdict v) s) :=
  flagsAtCompletion_inv h v 0 0 (by decide) (fun _ => rfl) (fun hlen => absurd rfl hlen) (Nat.zero_le _)

/-- The commit of an error, INVALID_CHARACTER aside. -/
theorem commit_err_inv (e : CommandError) (he : ∀ pos ch, e ≠ .invalidCharacter pos ch) :
    State.Inv (commit (.err e) s) := by
  have hlegal : errorCode e ∈ [0#4, 1#4, 2#4, 4#4, 5#4] := by
    cases e with
    | invalidCharacter pos ch => exact absurd rfl (he pos ch)
    | emptyInput | invalidFormat | badCommand | capacity => decide
  rw [commit_err e s he]
  exact flagsAtCompletion_inv h false _ 0 hlegal nofun (fun hlen => absurd rfl hlen) (Nat.zero_le _)

/-- No command computes INVALID_CHARACTER, and the output of an admitted one fits OUT. -/
theorem commit_commandResult_inv : State.Inv (commit (commandResult s) s) := by
  rcases commandResult_cases s with ⟨-, hr⟩ | ⟨-, -, hr⟩ | ⟨-, ⟨-, -, hr⟩ | ⟨-, -, text, -, hfit, hr⟩ | ⟨-, -, hr⟩ |
    ⟨-, -, out, -, hfit, hr⟩ | ⟨-, hr⟩⟩
  · rw [hr]; exact commit_err_inv h _ nofun
  · rw [hr]; exact commit_err_inv h _ nofun
  · rw [hr]; exact commit_err_inv h _ nofun
  · rw [hr]; exact commit_ok_inv h text hfit
  · rw [hr]; exact commit_err_inv h _ nofun
  · rw [hr]; exact commit_ok_inv h out hfit
  · rw [hr]; exact commit_verdict_inv h _

theorem engineTurn_inv : State.Inv (engineTurn s) := by
  cases hbusy : s.busy with
  | true => rw [engineTurn_of_busy s hbusy]; exact commit_commandResult_inv h
  | false => rw [engineTurn_of_idle s hbusy]; exact h

end

/-! ### Steps -/

/-- Settles O52: a step is a reset, a turn of the engine, a turn in which nothing happens, or a host access and what
the host does with its data, and each keeps the invariant. -/
theorem everyStepKeepsTheInvariant : Obligations.EveryStepKeepsTheInvariant := by
  intro s t h hstep
  have hturn : State.Inv (afterTurn s) := withHost_inv h s.program s.schedule.tail
  rcases step_cases s t hstep with rfl | rfl | rfl | ⟨op, rest, u, d, -, haccess, rfl⟩
  · exact resetBlock_inv hturn
  · exact engineTurn_inv hturn
  · exact hturn
  · have hused : State.Inv { afterTurn s with program := rest } := withHost_inv h rest s.schedule.tail
    exact hostFinish_inv (busAccess_inv hused _ u d haccess) op d

end Sys2Proof.Proofs
end

section
/-! PROOFS. The commands: what the CTRL write of each leaves alone, what an error's commit writes, what a result depends
on, and ENCODE, DECODE and VALIDATE from acceptance to completion (spec 41_encoder.md to 44_command.md). -/

namespace Sys2Proof.Proofs

open Sys2Proof.Machine

/-! ### The CTRL write -/

/-- What no command changes at its CTRL write: the bytes of both buffers, IN_LEN, the surroundings, and the draws of
OUT's unwritten bytes. -/
structure CommandFrame (s t : State) : Prop where
  input : SameIn s t
  output : SameOut s t
  inLen : t.inLen = s.inLen
  surroundings : SameSurroundings s t
  outEpoch : t.outEpoch = s.outEpoch

theorem CommandFrame.refl (s : State) : CommandFrame s s :=
  ⟨fun _ => rfl, fun _ => rfl, rfl, ⟨rfl, rfl, rfl, rfl, rfl, rfl⟩, rfl⟩

theorem storeCtrl_commandFrame (o : Op) (ic : Bool) (s : State) : CommandFrame s (storeCtrl o ic s) :=
  ⟨fun _ => rfl, fun _ => rfl, rfl, ⟨rfl, rfl, rfl, rfl, rfl, rfl⟩, rfl⟩

theorem acceptCommand_commandFrame (o : Op) (ic : Bool) (s : State) : CommandFrame s (acceptCommand o ic s) :=
  ⟨fun _ => rfl, fun _ => rfl, rfl, ⟨rfl, rfl, rfl, rfl, rfl, rfl⟩, rfl⟩

theorem exec_commandFrame (i : Instr) (s : State) : ∃ t, exec i s = .next t ∧ CommandFrame s t := by
  rcases exec_cases i s with ⟨-, he⟩ | ⟨-, o, ic, -, he⟩ | ⟨-, o, ic, he⟩
  · exact ⟨s, he, CommandFrame.refl s⟩
  · exact ⟨_, he, storeCtrl_commandFrame o ic s⟩
  · exact ⟨_, he, acceptCommand_commandFrame o ic s⟩

/-- CFG starts nothing (R180). -/
theorem exec_cfg (o : Op) (ic : Bool) (s : State) :
    exec (.cfg o ic) s = .next (if s.busy then s else storeCtrl o ic s) := rfl

/-- CFG leaves the flags and result registers as they are. -/
theorem flags_of_exec_cfg (o : Op) (ic : Bool) (s t : State) (h : exec (.cfg o ic) s = .next t) :
    t.busy = s.busy ∧ t.done = s.done ∧ t.verdict = s.verdict ∧ t.result = s.result ∧
      t.outLen = s.outLen ∧ t.errPos = s.errPos ∧ t.errChar = s.errChar := by
  rw [exec_cfg, Host.Outcome.next.injEq] at h
  subst h
  split <;> exact ⟨rfl, rfl, rfl, rfl, rfl, rfl, rfl⟩

/-- Settles O11: each of the three things a command can do keeps the frame, and CFG's two leave the flags. -/
theorem commandWriteFrame : Obligations.CommandWriteFrame := by
  intro i s
  obtain ⟨t, he, hframe⟩ := exec_commandFrame i s
  refine ⟨t, he, hframe.input, hframe.output, hframe.inLen, hframe.surroundings, hframe.outEpoch, ?_⟩
  rintro o ic rfl
  exact flags_of_exec_cfg o ic s t he

/-! ### The commit of an error -/

/-- R187: an error that carries no character records its code alone and leaves OUT. -/
theorem commit_err_completedWith (e : CommandError) (s : State) (he : ∀ pos ch, e ≠ .invalidCharacter pos ch) :
    CompletedWith (commit (.err e) s) false (errorCode e) 0 0 0 ∧ SameOut s (commit (.err e) s) := by
  rw [commit_err e s he]
  exact ⟨flagsAtCompletion_completedWith .., flagsAtCompletion_sameOut false (errorCode e) 0 0 0 s⟩

/-- Settles O17: the four errors without a record commit by their code, and INVALID_CHARACTER also takes OUT to a
fresh epoch. -/
theorem errorCommitWritesCodeAndRecord : Obligations.ErrorCommitWritesCodeAndRecord := by
  refine fun s => ⟨fun e he => ?_, fun pos ch => ⟨?_, commit_frame _ s, fun i => rfl⟩⟩
  · have hframe := commit_frame (.err e) s
    rcases he with rfl | rfl | rfl | rfl
    · exact and_assoc.1 ⟨commit_err_completedWith .emptyInput s nofun, hframe⟩
    · exact and_assoc.1 ⟨commit_err_completedWith .invalidFormat s nofun, hframe⟩
    · exact and_assoc.1 ⟨commit_err_completedWith .badCommand s nofun, hframe⟩
    · exact and_assoc.1 ⟨commit_err_completedWith .capacity s nofun, hframe⟩
  · exact flagsAtCompletion_completedWith ..

/-! ### What a result depends on -/

/-- An admitted command reads the bytes of IN below IN_LEN and no other (R59). -/
theorem commandInput_congr {s t : State} (hlen : s.inLen = t.inLen)
    (hbytes : ∀ i, i < s.inLen.toNat → inByte s i = inByte t i) : commandInput s = commandInput t := by
  rw [commandInput, commandInput, inputLength, inputLength, ← hlen]
  exact List.map_congr_left fun i hi => hbytes i (List.mem_range.1 hi)

theorem commandResult_of_reserved (s : State) (hop : s.op = .reserved) : commandResult s = .err .badCommand := by
  rw [commandResult, hop, reservedResult]

/-- Settles O19: RESERVED_OP and a command past IN_CAP look at no byte, and an admitted one looks at those on which
the two states agree. -/
theorem resultDependsOnOperandsAlone : Obligations.ResultDependsOnOperandsAlone := by
  intro s t hcap hop hic hlen hbytes
  by_cases hreserved : s.op = .reserved
  · rw [commandResult_of_reserved s hreserved, commandResult_of_reserved t (hop ▸ hreserved)]
  by_cases hover : s.cfg.inCap < s.inLen.toNat
  · rw [commandResult_of_overCapacity s hreserved hover,
      commandResult_of_overCapacity t (hop ▸ hreserved) (hcap ▸ hlen ▸ hover)]
  have hs : s.inLen.toNat ≤ s.cfg.inCap := Nat.not_lt.1 hover
  have ht : t.inLen.toNat ≤ t.cfg.inCap := hcap ▸ hlen ▸ hs
  have hinput : commandInput s = commandInput t :=
    commandInput_congr hlen fun i hi => hbytes i hi (hi.trans_le hs)
  cases ho : s.op with
  | reserved => exact absurd ho hreserved
  | encode => rw [commandResult_of_encode s hs ho, commandResult_of_encode t ht (hop ▸ ho), hinput]
  | decode => rw [commandResult_of_decode s hs ho, commandResult_of_decode t ht (hop ▸ ho), hinput, hic]
  | validate => rw [commandResult_of_validate s hs ho, commandResult_of_validate t ht (hop ▸ ho), hinput, hic]

/-! ### From acceptance to completion -/

section
variable (o : Op) (ic : Bool) (s : State)

/-- The engine's next turn after an acceptance (R183). -/
theorem engineTurn_acceptCommand : engineTurn (acceptCommand o ic s) =
    commit (commandResult (acceptCommand o ic s)) (acceptCommand o ic s) := engineTurn_of_busy _ rfl

/-- The two steps of a command leave IN and IN_LEN alone, and the completion keeps its frame. -/
theorem engineTurn_acceptCommand_frame :
    CompletionFrame (acceptCommand o ic s) (engineTurn (acceptCommand o ic s)) ∧
      SameIn s (engineTurn (acceptCommand o ic s)) ∧ (engineTurn (acceptCommand o ic s)).inLen = s.inLen := by
  rw [engineTurn_acceptCommand]
  have hframe := commit_frame (commandResult (acceptCommand o ic s)) (acceptCommand o ic s)
  exact ⟨hframe, hframe.input, hframe.inLen⟩

/-- Any other operation than 0b11 with IN_LEN > IN_CAP completes with CAPACITY (R205). -/
theorem engineTurn_acceptCommand_of_overCapacity (hop : o ≠ .reserved) (hcap : s.cfg.inCap < s.inLen.toNat) :
    CompletedWith (engineTurn (acceptCommand o ic s)) false 5 0 0 0 ∧
      SameOut s (engineTurn (acceptCommand o ic s)) := by
  rw [engineTurn_acceptCommand, commandResult_of_overCapacity (acceptCommand o ic s) hop hcap]
  exact commit_err_completedWith .capacity _ nofun

/-- A command that computes output bytes that fit OUT completes with them (R186). -/
theorem engineTurn_acceptCommand_of_ok (bytes : List Byte) (hr : commandResult (acceptCommand o ic s) = .ok bytes)
    (hfit : bytes.length ≤ outCap s.cfg) (hc : s.cfg.wf) :
    (engineTurn (acceptCommand o ic s)).outLen.toNat = bytes.length ∧
      CompletedWith (engineTurn (acceptCommand o ic s)) false 0 (engineTurn (acceptCommand o ic s)).outLen 0 0 ∧
      OutHolds bytes s (engineTurn (acceptCommand o ic s)) := by
  rw [engineTurn_acceptCommand, hr]
  obtain ⟨hlen, hcompleted, hout, -⟩ :=
    (successCommitWritesResultAndOut (acceptCommand o ic s) bytes false).1 hfit hc
  exact ⟨hlen, hcompleted, hout⟩

end

/-- Settles O12: the acceptance leaves the operands in place, and the completion commits CAPACITY, EMPTY_INPUT or the
text of the input, which fits OUT. -/
theorem encodeRunsToItsText : Obligations.EncodeRunsToItsText := by
  intro ic s hidle
  obtain ⟨hframe, hin, hlen⟩ := engineTurn_acceptCommand_frame .encode ic s
  have hresult (hcap : s.inLen.toNat ≤ s.cfg.inCap) :
      commandResult (acceptCommand .encode ic s) = resultOf (encodeText (commandInput s)) :=
    commandResult_of_encode (acceptCommand .encode ic s) hcap rfl
  refine ⟨acceptCommand .encode ic s, _, congrArg _ (startCommand_of_idle .encode ic s hidle), rfl, rfl, rfl, rfl,
    hframe, hin, hlen, engineTurn_acceptCommand_of_overCapacity .encode ic s nofun, fun hzero => ?_, fun hpos hcap hc => ?_⟩
  · have hnil : commandInput s = [] := List.length_eq_zero_iff.1 ((commandInput_length s).trans hzero)
    rw [engineTurn_acceptCommand, hresult (hzero ▸ Nat.zero_le _), hnil]
    exact commit_err_completedWith .emptyInput _ nofun
  · have hne : commandInput s ≠ [] := List.length_pos_iff.1 (hpos.trans_eq (commandInput_length s).symm)
    have htext := encodeText_of_ne_nil (commandInput s) hne
    have hlength := encodeText_length _ _ htext
    have hfit := encodeText_length_le_outCap s.cfg _ _ htext ((commandInput_length s).trans_le hcap)
    obtain ⟨houtLen, hcompleted, hout⟩ :=
      engineTurn_acceptCommand_of_ok .encode ic s _ ((hresult hcap).trans (by rw [htext, resultOf])) hfit hc
    exact ⟨_, htext, hlength.trans (by rw [commandInput_length]), houtLen, hcompleted, hout⟩

/-- Settles O13: the acceptance stores the word's IGNORE_CASE, under which the completion decodes the input: CAPACITY,
INVALID_FORMAT or the bytes, which fit OUT. The text of IN_LEN = 0 is one that does not validate. -/
theorem decodeRunsToItsBytes : Obligations.DecodeRunsToItsBytes := by
  intro ic s hidle
  obtain ⟨hframe, hin, hlen⟩ := engineTurn_acceptCommand_frame .decode ic s
  have hresult (hcap : s.inLen.toNat ≤ s.cfg.inCap) :
      commandResult (acceptCommand .decode ic s) = resultOf (decodeText ic (commandInput s)) :=
    commandResult_of_decode (acceptCommand .decode ic s) hcap rfl
  have hinvalid (hcap : s.inLen.toNat ≤ s.cfg.inCap) (hverdict : validateText ic (commandInput s) = false) :
      CompletedWith (engineTurn (acceptCommand .decode ic s)) false 2 0 0 0 ∧
        SameOut s (engineTurn (acceptCommand .decode ic s)) := by
    have herror : decodeText ic (commandInput s) = .error .invalidFormat := by simp [decodeText, hverdict]
    rw [engineTurn_acceptCommand, hresult hcap, herror]
    exact commit_err_completedWith .invalidFormat _ nofun
  refine ⟨acceptCommand .decode ic s, _, congrArg _ (startCommand_of_idle .decode ic s hidle), rfl, rfl, rfl, rfl,
    hframe, hin, hlen, engineTurn_acceptCommand_of_overCapacity .decode ic s nofun, fun hzero => ?_,
    fun hcap => ⟨hinvalid hcap, fun hvalid hc => ?_⟩⟩
  · have hnil : commandInput s = [] := List.length_eq_zero_iff.1 ((commandInput_length s).trans hzero)
    exact hinvalid (hzero ▸ Nat.zero_le _) (by rw [hnil, validateText_nil])
  · obtain ⟨out, hout⟩ := decodeText_of_valid ic (commandInput s) hvalid
    have hfit := (decodeText_length_le s.cfg ic _ out hout ((commandInput_length s).trans_le hcap)).trans
      (five_eighths_inCap_le_outCap s.cfg)
    exact ⟨out, hout,
      engineTurn_acceptCommand_of_ok .decode ic s out ((hresult hcap).trans (by rw [hout, resultOf])) hfit hc⟩

/-- Settles O14: the completion commits CAPACITY or the verdict under the word's IGNORE_CASE, and neither writes OUT. -/
theorem validateRunsToItsVerdict : Obligations.ValidateRunsToItsVerdict := by
  intro ic s hidle
  obtain ⟨hframe, hin, hlen⟩ := engineTurn_acceptCommand_frame .validate ic s
  have hover := engineTurn_acceptCommand_of_overCapacity .validate ic s nofun
  have hverdict (hcap : s.inLen.toNat ≤ s.cfg.inCap) : engineTurn (acceptCommand .validate ic s) =
      commitVerdict (validateText ic (commandInput s)) (acceptCommand .validate ic s) := by
    rw [engineTurn_acceptCommand, commandResult_of_validate (acceptCommand .validate ic s) hcap rfl]; rfl
  refine ⟨acceptCommand .validate ic s, _, congrArg _ (startCommand_of_idle .validate ic s hidle), rfl, rfl, rfl, rfl,
    hframe, hin, ?_, hlen, fun hcap => (hover hcap).1, fun hcap => ?_⟩
  · rcases Nat.lt_or_ge s.cfg.inCap s.inLen.toNat with hcap | hcap
    · exact (hover hcap).2
    · rw [hverdict hcap]
      exact flagsAtCompletion_sameOut _ 0 0 0 0 (acceptCommand .validate ic s)
  · rw [hverdict hcap]
    exact flagsAtCompletion_completedWith ..

end Sys2Proof.Proofs
end

section
/-! PROOFS. Host accesses: which are bus errors, what the registers read as, and what a read or a write changes (spec
10_state.md section 3 and 20_memory.md R50 to R64). -/

namespace Sys2Proof.Proofs

open Sys2Proof.Machine

/-! ### Addresses -/

/-- Settles O34: the offset of BASE + off is off, within the block's 0x300000. -/
theorem addressesAreOffsetsFromBase : Obligations.AddressesAreOffsetsFromBase := by
  refine fun c off => ⟨fun hoff => ?_, fun hoff => ?_, fun addr haddr => ?_⟩
  · have hin : c.base ≤ c.base + off ∧ c.base + off < c.base + blockEnd :=
      ⟨Nat.le_add_right _ _, Nat.add_lt_add_left hoff _⟩
    rw [offsetOfAddress, if_pos hin, Nat.add_sub_cancel_left]
  · exact if_neg fun hin => absurd (Nat.lt_of_add_lt_add_left hin.2) (Nat.not_lt.2 hoff)
  · exact if_neg fun hin => absurd haddr (Nat.not_lt.2 hin.1)

/-! ### Bus errors -/

/-- Once decoded, an access answers: no command is an error, and the other accesses are plain reads and writes. -/
theorem performAccess_eq_next (a : Access) (s : State) : ∃ t d, performAccess a s = .next (t, d) := by
  cases a with
  | command i =>
    obtain ⟨t, ht⟩ := exec_eq_next i s
    exact ⟨t, 0, by rw [performAccess, ht, withoutData]⟩
  | readReg r => exact ⟨_, _, rfl⟩
  | writeReg r v => exact ⟨_, _, rfl⟩
  | readIn sz i => exact ⟨_, _, rfl⟩
  | writeIn sz i v => exact ⟨_, _, rfl⟩
  | readOut sz i => exact ⟨_, _, rfl⟩

theorem busAccess_next_of_legal (r : Request) (s : State) (hc : s.cfg.wf) (h : legalAccess s.cfg r) :
    ∃ t d, busAccess r s = .next (t, d) := by
  obtain ⟨a, ha⟩ := (legalAccess_iff s.cfg r hc).1 h
  simp only [busAccess, ha]
  exact performAccess_eq_next a s

/-- Settles O26: a legal access answers and any other is a bus error, and no access does both. -/
theorem rejectedAccessesAreBusErrors : Obligations.RejectedAccessesAreBusErrors := by
  refine fun r s hc => ⟨⟨busAccess_fault_of_not_legal r s hc, ?_⟩, ⟨busAccess_next_of_legal r s hc, ?_⟩⟩
  · rintro ⟨cause, hfault⟩ hlegal
    obtain ⟨t, d, hnext⟩ := busAccess_next_of_legal r s hc hlegal
    cases hfault.symm.trans hnext
  · rintro ⟨t, d, hnext⟩
    by_contra hlegal
    obtain ⟨cause, hfault⟩ := busAccess_fault_of_not_legal r s hc hlegal
    cases hfault.symm.trans hnext

/-! ### Registers -/

theorem busAccess_reg_read (r : Reg) (d : Word) (s : State) :
    busAccess ⟨regOffset r, 4, false, d⟩ s = .next (s, readReg s r) := by
  simp only [busAccess, decodeRequest_reg_read, performAccess]

theorem busAccess_inLen_write (v : Word) (s : State) :
    busAccess ⟨0x00C, 4, true, v⟩ s = .next (storeInLen v s, 0) := rfl

/-- Settles O24: the offset of each of the nine registers reads that register. -/
theorem registersReadAtTheirOffsets : Obligations.RegistersReadAtTheirOffsets := fun s d =>
  ⟨busAccess_reg_read .id d s, busAccess_reg_read .ctrl d s, busAccess_reg_read .status d s,
    busAccess_reg_read .inLen d s, busAccess_reg_read .outLen d s, busAccess_reg_read .errPos d s,
    busAccess_reg_read .errChar d s, busAccess_reg_read .capIn d s, busAccess_reg_read .capOut d s⟩

theorem storeInLen_of_idle (v : Word) (s : State) (hidle : s.busy = false) :
    storeInLen v s = { s with inLen := v } := by
  simp [storeInLen, hidle]

theorem exec_inLen (i : Instr) (s t : State) (h : exec i s = .next t) : t.inLen = s.inLen := by
  obtain ⟨u, hu, hframe⟩ := exec_commandFrame i s
  cases hu.symm.trans h
  exact hframe.inLen

theorem engineTurn_inLen (s : State) : (engineTurn s).inLen = s.inLen := by
  cases hbusy : s.busy with
  | true => rw [engineTurn_of_busy s hbusy]; exact (commit_frame _ s).inLen
  | false => rw [engineTurn_of_idle s hbusy]

/-- Settles O25: an idle block stores the word and a busy one drops it, a word above IN_CAP makes the next command
complete with CAPACITY, and neither step of a command writes IN_LEN. -/
theorem inLenHoldsEveryValue : Obligations.InLenHoldsEveryValue := by
  refine fun s v => ⟨fun hidle => ?_, fun hbusy => ?_, fun i t => exec_inLen i s t, engineTurn_inLen s, rfl⟩
  · refine ⟨_, busAccess_inLen_write v s, storeInLen_of_idle v s hidle, ?_, fun o ic hop hcap => ?_⟩
    · rw [storeInLen_of_idle v s hidle]
      exact busAccess_reg_read .inLen 0 _
    · rw [storeInLen_of_idle v s hidle]
      exact (engineTurn_acceptCommand_of_overCapacity o ic { s with inLen := v } hop hcap).1.result
  · rw [busAccess_inLen_write, storeInLen_of_busy v s hbusy]

/-- A command that runs has not completed (R30). -/
theorem done_of_busy (s : State) (h : State.Inv s) (hbusy : s.busy = true) : s.done = false :=
  Bool.eq_false_iff.2 fun hdone => h.notBusyAndDone ⟨hbusy, hdone⟩

/-- STATUS while a command runs: the invariant has DONE, VERDICT and RESULT clear (R62, R234). -/
theorem statusWord_of_busy (s : State) (h : State.Inv s) (hbusy : s.busy = true) : statusWord s = 0x00000001 := by
  have hdone := done_of_busy s h hbusy
  obtain ⟨hverdict, hresult, -⟩ := h.clearUntilDone hdone
  rw [statusWord, hbusy, hdone, hverdict, hresult]
  decide

/-- Settles O53: the four registers read at their offsets, and the invariant clears all but BUSY. -/
theorem resultRegistersReadZeroWhileBusy : Obligations.ResultRegistersReadZeroWhileBusy := by
  intro s d h hbusy
  obtain ⟨-, -, houtLen⟩ := h.clearUntilDone (done_of_busy s h hbusy)
  obtain ⟨herrPos, herrChar⟩ := h.noErrorRecord
  have hread (r : Reg) (v : Word) (hv : readReg s r = v) :
      busAccess ⟨regOffset r, 4, false, d⟩ s = .next (s, v) := by rw [busAccess_reg_read, hv]
  exact ⟨hread .status _ (statusWord_of_busy s h hbusy), hread .outLen _ houtLen, hread .errPos _ herrPos,
    hread .errChar _ herrChar⟩

/-! ### What a read changes -/

/-- The count of draws after a read of `n` bytes at an offset (R62). -/
def drawsAfterRead (s : State) (r : Request) : Nat :=
  if s.busy = true ∧ 0x200000 ≤ r.off then s.draws + r.n else s.draws

theorem withDraws_of_not_drawn (s : State) (r : Request) (h : s.busy = false ∨ r.off < 0x200000) :
    { s with draws := drawsAfterRead s r } = s := by
  have hnot : ¬(s.busy = true ∧ 0x200000 ≤ r.off) := by
    rintro ⟨hbusy, hoff⟩
    rcases h with hidle | hlow
    · cases hidle.symm.trans hbusy
    · exact absurd hoff (Nat.not_le.2 hlow)
  rw [drawsAfterRead, if_neg hnot]

theorem countDraws_eq_withDraws (s : State) (r : Request) (sz : Size) (hoff : 0x200000 ≤ r.off)
    (hn : r.n = sizeBytes sz) : countDraws sz s = { s with draws := drawsAfterRead s r } := by
  rcases Bool.eq_false_or_eq_true s.busy with hbusy | hidle
  · rw [drawsAfterRead, if_pos ⟨hbusy, hoff⟩, hn, countDraws, if_pos hbusy]
  · rw [withDraws_of_not_drawn s r (.inl hidle), countDraws_of_idle sz s hidle]

/-- R64: a read moves at most the count of draws. -/
theorem busAccess_read_frame (s t : State) (r : Request) (d : Word) (hread : r.write = false)
    (h : busAccess r s = .next (t, d)) : t = { s with draws := drawsAfterRead s r } := by
  unfold busAccess at h
  split at h
  · rename_i a ha
    rcases decodeRequest_read s.cfg r a ha hread with ⟨reg, hoff, rfl⟩ | ⟨sz, i, hoff, rfl⟩ | ⟨sz, i, hoff, hn, rfl⟩
    · cases h
      exact (withDraws_of_not_drawn s r (.inr (hoff.trans (by decide)))).symm
    · cases h
      exact (withDraws_of_not_drawn s r (.inr hoff)).symm
    · cases h
      exact countDraws_eq_withDraws s r sz hoff hn
  · cases h

/-! ### What a write changes -/

/-- What a write of an idle block does, by the place it names: CTRL, another register, or bytes of IN. -/
theorem busAccess_write_cases (s t : State) (r : Request) (d : Word) (hwrite : r.write = true)
    (h : busAccess r s = .next (t, d)) :
    (r.off = ctrlOff ∧ exec (decodeCommand r.data) s = .next t) ∨
    (∃ reg, reg ≠ .ctrl ∧ r.off = regOffset reg ∧ t = writeReg reg r.data s) ∨
    (∃ sz i, r.off = inBase + i ∧ r.n = sizeBytes sz ∧ t = storeIn sz i r.data s) := by
  unfold busAccess at h
  split at h
  · rename_i a ha
    rcases decodeRequest_write s.cfg r a ha hwrite with ⟨hoff, -, rfl⟩ | ⟨reg, hreg, hoff, -, rfl⟩ |
      ⟨sz, i, hoff, hn, rfl⟩
    · obtain ⟨u, hu⟩ := exec_eq_next (decodeCommand r.data) s
      rw [performAccess, hu, withoutData] at h
      cases h
      exact .inl ⟨hoff, hu⟩
    · cases h
      exact .inr (.inl ⟨reg, hreg, hoff, rfl⟩)
    · cases h
      exact .inr (.inr ⟨sz, i, hoff, hn, rfl⟩)
  · cases h

/-- While busy a write changes nothing (R61). -/
theorem busAccess_write_busy_frame (s t : State) (r : Request) (d : Word) (hwrite : r.write = true)
    (h : busAccess r s = .next (t, d)) (hbusy : s.busy = true) : t = s := by
  rcases busAccess_write_cases s t r d hwrite h with ⟨-, he⟩ | ⟨reg, -, -, rfl⟩ | ⟨sz, i, -, -, rfl⟩
  · cases (exec_of_busy _ s hbusy).symm.trans he
    rfl
  · exact writeReg_of_busy reg _ s hbusy
  · exact storeIn_of_busy sz i _ s hbusy

/-- No two registers share an offset. -/
theorem regOffset_inj {a b : Reg} (h : regOffset a = regOffset b) : a = b :=
  Option.some.inj ((regAt_regOffset a).symm.trans ((congrArg regAt h).trans (regAt_regOffset b)))

/-- R40: a register other than CTRL and IN_LEN takes no write. -/
theorem writeReg_readOnly (reg : Reg) (v : Word) (s : State) (h : reg ≠ .inLen) : writeReg reg v s = s := by
  cases reg with
  | inLen => exact absurd rfl h
  | _ => rfl

/-- Settles O31: a read moves the count of draws alone, and below OUT or while idle not even that; a write is one of
CTRL, of a register or of bytes of IN, and each changes the place it names. -/
theorem readsHaveNoSideEffects : Obligations.ReadsHaveNoSideEffects := by
  refine ⟨fun s t r d hread h => ?_, fun s t r d hwrite h => ⟨busAccess_write_busy_frame s t r d hwrite h,
    fun hidle => ?_⟩⟩
  · have hframe := busAccess_read_frame s t r d hread h
    refine ⟨hframe, fun hnot => ?_⟩
    have hsame : t = s := hframe.trans (withDraws_of_not_drawn s r hnot)
    exact ⟨hsame, by rwa [hsame] at h ⊢⟩
  · rcases busAccess_write_cases s t r d hwrite h with ⟨hoff, he⟩ | ⟨reg, hctrl, hoff, rfl⟩ | ⟨sz, i, hoff, hn, rfl⟩
    · rw [hoff]
      refine ⟨fun _ hcfg => ?_, nofun, fun _ hne => absurd rfl hne, fun hge => absurd hge (by decide)⟩
      rw [exec_decodeCommand_of_idle _ s hidle, hcfg] at he
      cases he
      rfl
    · have hlt : r.off < 0x24 := hoff.trans_lt (regOffset_lt reg)
      refine ⟨fun hoff4 => ?_, fun hoffC => ?_, fun _ _ hneC => ?_, fun hge => absurd hlt (Nat.not_lt.2 hge)⟩
      · exact absurd (regOffset_inj (b := .ctrl) (hoff.symm.trans hoff4)) hctrl
      · rw [regOffset_inj (b := .inLen) (hoff.symm.trans hoffC)]
        exact storeInLen_of_idle _ s hidle
      · exact writeReg_readOnly reg _ s fun hreg => hneC (hoff.trans (congrArg regOffset hreg))
    · simp only [inBase] at hoff
      refine ⟨fun h4 => by omega, fun hC => by omega, fun hlt => by omega,
        fun _ => ⟨by omega, storeIn_frame .., ?_, ?_⟩⟩
      · intro j hj
        rw [hoff, Nat.add_sub_cancel_left]
        exact inByte_storeIn_lane sz i j _ s hidle (hn ▸ hj)
      · intro j hj
        exact inByte_storeIn_outside sz i j _ s hidle (by omega)

end Sys2Proof.Proofs
end

section
/-! PROOFS. The codec from text to text: the number a text decodes to, and that a text without residual bits is what its
decoding encodes to (spec 42_decoder.md R142 to R146, 95_test_vectors.md P2). -/

namespace Sys2Proof.Proofs

open Sys2Proof.Machine

/-- Settles O47: the length and the number of what a valid text decodes to. -/
theorem decodeRepacksItsSymbols : Obligations.DecodeRepacksItsSymbols := by
  intro ic s hvalid
  obtain ⟨out, hout⟩ := decodeText_of_valid ic s hvalid
  exact ⟨out, hout, decodeText_length ic s out hout, bytesValue_of_decodeText ic s out hout⟩

/-! ### Symbols and their numbers -/

/-- Symbol sequences of one length that spell one number are equal. -/
theorem symbols_eq_of_value (a b : List (BitVec 5)) (hl : a.length = b.length)
    (hv : symbolsValue a = symbolsValue b) : a = b := by
  induction a generalizing b with
  | nil => exact (List.length_eq_zero_iff.1 hl.symm).symm
  | cons x a ih =>
    cases b with
    | nil => cases hl
    | cons y b =>
      have hlen : a.length = b.length := Nat.succ.inj hl
      have hpos : 0 < 32 ^ b.length := Nat.pow_pos (by decide)
      have hquotient (z : BitVec 5) (c : List (BitVec 5)) (hc : c.length = b.length) :
          (z.toNat * 32 ^ b.length + symbolsValue c) / 32 ^ b.length = z.toNat := by
        rw [Nat.mul_comm, Nat.mul_add_div hpos, Nat.div_eq_of_lt (hc ▸ symbolsValue_lt c), Nat.add_zero]
      rw [symbolsValue_cons, symbolsValue_cons, hlen] at hv
      have hhead : x.toNat = y.toNat := by
        rw [← hquotient x a hlen, hv, hquotient y b rfl]
      have htail : symbolsValue a = symbolsValue b := by
        rw [hhead] at hv
        exact Nat.add_left_cancel hv
      rw [BitVec.eq_of_toNat_eq hhead, ih b hlen htail]

/-! ### Upper case -/

/-- The character as the decoder sees it (R104, R105). -/
def foldIf (ic : Bool) (c : Byte) : Byte := if ic then fold c else c

theorem lookup_eq_inv_foldIf (ic : Bool) (c : Byte) : lookup ic c = inv (foldIf ic c) := rfl

@[simp] theorem foldIf_padByte (ic : Bool) : foldIf ic padByte = padByte := by
  cases ic <;> rfl

theorem map_foldIf (ic : Bool) (s : List Byte) : s.map (foldIf ic) = if ic then s.map fold else s := by
  cases ic with
  | true => rfl
  | false => exact List.map_id s

/-- The symbols of a data region's values are its characters in upper case. -/
theorem map_sym_textValues (ic : Bool) (d : List Byte) (hd : ∀ c ∈ d, (lookup ic c).isSome) :
    (textValues ic d).map sym = d.map (foldIf ic) := by
  induction d with
  | nil => rfl
  | cons c d ih =>
    obtain ⟨v, hv⟩ := Option.isSome_iff_exists.1 (hd c List.mem_cons_self)
    have hrest := ih fun e he => hd e (List.mem_cons_of_mem c he)
    have hsym : sym v = foldIf ic c := sym_of_inv _ _ (lookup_eq_inv_foldIf ic c ▸ hv)
    rw [textValues] at hrest
    rw [textValues, List.filterMap_cons_some hv, List.map_cons, List.map_cons, hsym, hrest]

/-! ### From a text to its decoding and back -/

/-- A text that validates is its data region and then padding, and every data character has a value (R168). -/
theorem eq_dataRegion_append_padding (ic : Bool) (s : List Byte) (hvalid : validateText ic s = true) :
    s = dataRegion s ++ List.replicate (s.length - firstPad s) padByte ∧
      ∀ c ∈ dataRegion s, (lookup ic c).isSome := by
  obtain ⟨-, hchar, hinner, hcount⟩ := (validateText_iff_checks ic s).1 hvalid
  obtain ⟨d, n, rfl, hd, -⟩ := exists_data_append_padding ic s hchar hinner hcount
  have hnotPad : ∀ c ∈ d, isPad c = false := fun c hc => isPad_of_lookup ic c (hd c hc)
  rw [dataRegion_append d n hnotPad, firstPad_append d n hnotPad]
  exact ⟨by simp, hd⟩

/-- R126, R131, R145: the decoding of a valid text has bytes, and encodes to as many data symbols and as much padding
as the text has. -/
theorem counts_of_decodeText (ic : Bool) (s out : List Byte) (h : decodeText ic s = .ok out) :
    0 < out.length ∧ (8 * out.length + 4) / 5 = firstPad s ∧ padCount out.length = s.length - firstPad s := by
  obtain ⟨hvalid, -⟩ := (decodeText_eq_ok_iff ic s out).1 h
  obtain ⟨hpos, -⟩ := (validateClosedForm ic s).1 hvalid
  obtain ⟨out', d, hout', hd, hlength, hcases⟩ := decodedLength ic s hvalid
  cases h.symm.trans hout'
  have hdata : d = firstPad s := hd
  have hsum := dataCount_add_padCount out.length
  rw [← hdata]
  omega

/-- Settles O49: the encoding of the decoded bytes has as many data symbols as the text, and, the residual bits being
zero, they spell the same number; so they are the text's own, in upper case. -/
theorem encodeOfDecodedTextIsCanonical : Obligations.EncodeOfDecodedTextIsCanonical := by
  intro ic s hvalid hresidual
  obtain ⟨b, hb⟩ := decodeText_of_valid ic s hvalid
  obtain ⟨hpos, hdataCount, hpadCount⟩ := counts_of_decodeText ic s b hb
  obtain ⟨hshape, hvalues⟩ := eq_dataRegion_append_padding ic s hvalid
  obtain ⟨vs, htext, hcount, hnumber⟩ := encodeBlocks_spec b
  have hlength : vs.length = (textValues ic (dataRegion s)).length := by
    rw [hcount, hdataCount, textValues_length ic _ hvalues, dataRegion, List.length_take_of_le (firstPad_le s)]
  have hbits : 5 * vs.length - 8 * b.length = 5 * firstPad s % 8 := by omega
  have hvalue : symbolsValue vs = symbolsValue (textValues ic (dataRegion s)) := by
    rw [hnumber, hbits, bytesValue_of_decodeText ic s b hb]
    exact Nat.div_mul_cancel (Nat.dvd_of_mod_eq_zero hresidual)
  refine ⟨b, hb, ?_⟩
  rw [encodeText_of_ne_nil b (List.length_pos_iff.1 hpos), htext, symbols_eq_of_value vs _ hlength hvalue,
    map_sym_textValues ic _ hvalues, ← map_foldIf]
  conv_rhs => rw [hshape, List.map_append, List.map_replicate, foldIf_padByte, ← hpadCount]
  rfl

end Sys2Proof.Proofs
end

section
/-! PROOFS. Steps: the host's turn line by line, the engine's turn, reset, and that an accepted command completes (spec
30_encoding.md R86 and R87, 44_command.md R183 and R188, 70_reset_and_hazards.md R230). -/

namespace Sys2Proof.Proofs

open Sys2Proof.Machine

/-! ### The default turn -/

theorem defaultTurn_of_idle (s : State) (hidle : s.busy = false) : defaultTurn s = .host :=
  if_neg (Bool.eq_false_iff.1 hidle)

theorem defaultTurn_of_busy (s : State) (hbusy : s.busy = true) : defaultTurn s = .engine := if_pos hbusy

/-! ### The host's turn -/

/-- It is the host's turn, with `turns` to follow: its turn is scheduled, or nothing is and the block is idle. -/
def HostMoves (s : State) (turns : List Turn) : Prop :=
  s.schedule = .host :: turns ∨ s.schedule = [] ∧ turns = [] ∧ s.busy = false

theorem step_of_hostMoves (s : State) (turns : List Turn) (h : HostMoves s turns) :
    step s = hostTurn { s with schedule := turns } := by
  rcases h with hs | ⟨hs, rfl, hidle⟩
  · exact step_scheduled s .host turns hs
  · rw [step_unscheduled s hs, defaultTurn_of_idle s hidle, ← hs]
    rfl

/-- The request of a line reads the host's names alone. -/
theorem hostRequest_withHost (s : State) (op : HostOp) (program : List HostOp) (turns : List Turn) :
    hostRequest { s with program := program, schedule := turns } op = hostRequest s op := by
  cases op <;> rfl

/-- The host's turn performs its next line on the state with that line and the turn used up (R65, R86). -/
theorem step_hostLine (s : State) (op : HostOp) (rest : List HostOp) (turns : List Turn)
    (hp : s.program = op :: rest) (h : HostMoves s turns) :
    step s = hostTake op (busAccess (hostRequest s op) { s with program := rest, schedule := turns }) := by
  rw [step_of_hostMoves s turns h, hostTurn_cons { s with schedule := turns } op rest hp]
  exact congrArg (fun r => hostTake op (busAccess r _)) (hostRequest_withHost s op s.program turns)

/-- Settles O56: the host takes what its access answers, whichever line it is, and a fault stops it. -/
theorem stepPerformsTheHostsAccess : Obligations.StepPerformsTheHostsAccess := by
  refine ⟨?_, fun s turns hp hs => ?_, fun s t off n hi lo x v mask value d =>
    ⟨rfl, rfl, rfl, rfl, rfl, rfl, rfl, rfl⟩⟩
  · rintro s s' op rest turns hp hturn rfl
    have hstep := step_hostLine s op rest turns hp hturn
    refine ⟨fun t d hbus => ?_, fun off cause hbus => ?_, busAccess_total _ _⟩
    · rw [hstep, hbus, hostTake]
    · rw [hstep, hbus, hostTake]
  · rw [step_of_hostMoves s turns (.inl hs)]
    exact hostTurn_nil { s with schedule := turns } hp

/-- Settles O27: an access that is not legal is a bus error, and the host's turn stops with it. -/
theorem busErrorStopsTheRun : Obligations.BusErrorStopsTheRun := by
  intro s op rest turns hc hp hs hlegal
  obtain ⟨cause, hfault⟩ :=
    busAccess_fault_of_not_legal (hostRequest s op) { s with program := rest, schedule := turns } hc hlegal
  exact ⟨cause, by rw [step_hostLine s op rest turns hp (.inl hs), hfault, hostTake]⟩

/-! ### Commands -/

/-- The host's write of CTRL is the command its word decodes to (R80). -/
theorem step_hostCommand (s : State) (v : HostVal) (rest : List HostOp) (turns : List Turn)
    (hp : s.program = .wr ctrlOff 4 v :: rest) (h : HostMoves s turns) :
    step s = exec (decodeCommand (hostValue s v)) { s with program := rest, schedule := turns } := by
  obtain ⟨t, ht⟩ := exec_eq_next (decodeCommand (hostValue s v)) { s with program := rest, schedule := turns }
  rw [step_hostLine s _ rest turns hp h, ht]
  exact congrArg (hostTake _) ((busAccess_commandRequest (hostValue s v) _).trans (congrArg withoutData ht))

/-- Settles O6: the turn is the host's in all three clauses, with a write of CTRL next. -/
theorem stepRunsTheDecodedCommand : Obligations.StepRunsTheDecodedCommand := by
  refine ⟨fun s v rest turns hp hs => step_hostCommand s v rest turns hp (.inl hs), fun s v rest hp hs hidle => ?_,
    fun s w hw => ?_⟩
  · rw [step_hostCommand s v rest [] hp (.inr ⟨hs, rfl, hidle⟩), ← hs]
  · have hword : BitVec.ofNat 32 (w % 2 ^ 32) = BitVec.ofNat 32 w := by rw [Nat.mod_eq_of_lt hw]
    rw [← hword]
    exact step_hostCommand (s.withFetchWord 32 w) (.num _) s.program s.schedule rfl (.inl rfl)

/-! ### Polls -/

/-- Bit 1 of STATUS is DONE (R30). -/
theorem statusWord_and_done (s : State) : statusWord s &&& 0x2 = 0x2 ↔ s.done = true := by
  have hbit : (0x2 : Word) = BitVec.twoPow 32 1 := rfl
  have hdone : (statusWord s).getLsbD 1 = s.done := statusWord_getLsbD s 1
  rw [hbit, BitVec.and_twoPow, hdone]
  cases s.done <;> decide

/-- What the host does with the STATUS that WAIT reads (R87). -/
theorem hostFinish_wait (s t : State) : hostFinish hostWait (statusWord s) t =
    if s.done then t else { t with program := hostWait :: t.program } := by
  exact if_congr (statusWord_and_done s) rfl rfl

/-- Settles O32: the poll reads STATUS, which changes nothing, and is issued again unless it finds DONE set. -/
theorem waitPollsUntilDone : Obligations.WaitPollsUntilDone := by
  intro s rest turns hp hs
  have hline : s.program = hostWait :: rest := hp
  have hread := busAccess_reg_read .status 0 { s with program := rest, schedule := turns }
  have hstep : step s = .next (hostFinish hostWait (statusWord s) { s with program := rest, schedule := turns }) :=
    (step_hostLine s hostWait rest turns hline (.inl hs)).trans (congrArg (hostTake hostWait) hread)
  rw [hstep, hostFinish_wait]
  refine ⟨fun hdone => ?_, fun hdone => congrArg _ (if_pos hdone)⟩
  refine congrArg _ ((if_neg (Bool.eq_false_iff.1 hdone)).trans ?_)
  rw [← hline]

/-! ### Reads into names -/

theorem hostValue_bindName_same (x : Nat) (v : Word) (s : State) : hostValue (bindName x v s) (.name x) = v := by
  rw [hostValue, nameValue, bindName_names, cellGet_cellSet_same, Option.getD_some]

theorem hostValue_bindName_other (x y : Nat) (v : Word) (s : State) (h : y ≠ x) :
    hostValue (bindName x v s) (.name y) = hostValue s (.name y) := by
  simp only [hostValue, nameValue, bindName_names, cellGet_cellSet_other _ _ _ _ h]

/-- What a read that answers leaves at the host, once its name is bound: the value under the name and under no other,
and the program past the line. -/
theorem bindName_of_busAccess (s t : State) (r : Request) (rest : List HostOp) (turns : List Turn) (d v : Word)
    (x : Nat) (h : busAccess r { s with program := rest, schedule := turns } = .next (t, d)) :
    (bindName x v t).program = rest ∧
      (∀ y, y ≠ x → hostValue (bindName x v t) (.name y) = hostValue s (.name y)) ∧
      bindName x v t = { t with names := (bindName x v t).names } := by
  obtain ⟨hnames, hprogram, -, -⟩ := busAccess_host _ _ t d h
  refine ⟨hprogram, fun y hy => ?_, rfl⟩
  rw [hostValue_bindName_other x y v t hy, hostValue, hostValue, nameValue, nameValue, hnames]

/-- Bits [7:4] of STATUS are RESULT (R32, R87). -/
theorem wordField_statusWord (s : State) : wordField 7 4 (statusWord s) = s.result.zeroExtend 32 := by
  refine BitVec.eq_of_getLsbD_eq fun j hj => ?_
  have hflags : 4 + j ≠ 0 ∧ 4 + j ≠ 1 ∧ 4 + j ≠ 2 ∧ ¬ 4 + j < 4 := by omega
  have hfield : (wordField 7 4 (statusWord s)).getLsbD j = (decide (j < 4) && s.result.getLsbD j) := by
    rw [wordField_getLsbD, statusWord_getLsbD, if_neg hflags.1, if_neg hflags.2.1, if_neg hflags.2.2.1,
      if_neg hflags.2.2.2, Nat.add_sub_cancel_left]
  rw [hfield]
  by_cases h4 : j < 4
  · simp [h4, hj]
  · simp [h4, BitVec.getLsbD_of_ge s.result j (Nat.not_lt.1 h4)]

/-- Settles O33: the host binds what its read answers, or a field of it, to the line's name. -/
theorem readBindsItsName : Obligations.ReadBindsItsName := by
  refine fun s rest turns hs => ⟨fun t off n x d hp hbus => ?_, fun t off hi lo x d hp hbus => ?_, fun x hp => ?_⟩
  · obtain ⟨hprogram, hothers, hframe⟩ := bindName_of_busAccess s t _ rest turns d d x hbus
    have hvalue := hostValue_bindName_same x d t
    refine ⟨bindName x d t, ?_, hvalue, hprogram, fun off' n' => ?_, hothers, hframe⟩
    · exact (step_hostLine s _ rest turns hp (.inl hs)).trans (congrArg (hostTake _) hbus)
    · rw [hostRequest, hvalue]
  · obtain ⟨hprogram, hothers, hframe⟩ := bindName_of_busAccess s t _ rest turns d (wordField hi lo d) x hbus
    refine ⟨bindName x (wordField hi lo d) t, ?_, hprogram, fun j => ?_, fun off' n' => rfl, hothers, hframe⟩
    · exact (step_hostLine s _ rest turns hp (.inl hs)).trans (congrArg (hostTake _) hbus)
    · rw [hostValue_bindName_same, wordField_getLsbD]
  · have hbus := busAccess_reg_read .status 0 { s with program := rest, schedule := turns }
    refine ⟨bindName x (wordField 7 4 (statusWord s)) { s with program := rest, schedule := turns },
      (step_hostLine s _ rest turns hp (.inl hs)).trans (congrArg (hostTake _) hbus), ?_⟩
    rw [hostValue_bindName_same, wordField_statusWord]

/-! ### The engine's turn -/

/-- A result reads nothing of the schedule. -/
theorem commandResult_withSchedule (s : State) (turns : List Turn) :
    commandResult { s with schedule := turns } = commandResult s :=
  commandResult_of_sameOperands ⟨rfl, rfl, rfl, fun _ => rfl, rfl⟩

/-- The engine moves, with `turns` to follow: its turn is scheduled, or nothing is. -/
def EngineMoves (s : State) (turns : List Turn) : Prop :=
  s.schedule = .engine :: turns ∨ s.schedule = [] ∧ turns = []

/-- The completion is the engine's step while a command is pending (R183). -/
theorem step_of_engineMoves (s : State) (turns : List Turn) (hbusy : s.busy = true) (h : EngineMoves s turns) :
    step s = .next (commit (commandResult s) { s with schedule := turns }) := by
  have hturn : engineTurn { s with schedule := turns } = commit (commandResult s) { s with schedule := turns } :=
    (engineTurn_of_busy { s with schedule := turns } hbusy).trans (by rw [commandResult_withSchedule])
  rw [← hturn]
  rcases h with hs | ⟨hs, rfl⟩
  · exact step_scheduled s .engine turns hs
  · rw [step_unscheduled s hs, defaultTurn_of_busy s hbusy, ← hs]
    rfl

/-- Settles O7: the engine's turn completes a pending command, scheduled or by default, and is idle otherwise. -/
theorem engineCompletesExactlyWhenBusy : Obligations.EngineCompletesExactlyWhenBusy := by
  refine fun s turns => ⟨fun hs hbusy => step_of_engineMoves s turns hbusy (.inl hs), fun hs hidle => ?_,
    fun hs hbusy => ?_⟩
  · rw [step_scheduled s .engine turns hs]
    exact congrArg _ (engineTurn_of_idle { s with schedule := turns } hidle)
  · rw [step_of_engineMoves s [] hbusy (.inr ⟨hs, rfl⟩), ← hs]

/-! ### Reset -/

/-- CTRL and STATUS read the flags alone, and a reset leaves those of power-on. -/
theorem readReg_flags_resetBlock (s : State) :
    readReg (resetBlock s) .ctrl = 0x00000004 ∧ readReg (resetBlock s) .status = 0 := by
  have hctrl : readReg (resetBlock s) .ctrl = readReg State.reset .ctrl := rfl
  have hstatus : readReg (resetBlock s) .status = readReg State.reset .status := rfl
  rw [hctrl, hstatus]
  decide

/-- Settles O50: every register takes its reset value, the parameters stay, and both buffers are fresh draws. -/
theorem resetLeavesTheDocumentedState : Obligations.ResetLeavesTheDocumentedState := by
  refine ⟨fun s => ?_, rfl, by decide, by decide, rfl, rfl, rfl, rfl, rfl, rfl⟩
  obtain ⟨hctrl, hstatus⟩ := readReg_flags_resetBlock s
  exact ⟨rfl, hctrl, hstatus, rfl, rfl, rfl, rfl, rfl, rfl, rfl, engineTurn_of_idle _ rfl, fun _ => rfl, fun _ => rfl,
    fun turns hs => step_scheduled s .reset turns hs⟩

/-! ### Completion -/

/-- What holds of a state with a command pending within `k` steps and one more (R188): the engine commits the result the
state has now, a scheduled reset abandons the command, or the host stops with a bus error. -/
def Concludes (k : Nat) (s : State) : Prop :=
  (∃ t u, run k s = .next t ∧ t.busy = true ∧ commandResult t = commandResult s ∧
    step t = .next u ∧ u.busy = false ∧ u.done = true ∧
    ∃ turns, u = commit (commandResult s) { t with schedule := turns }) ∨
  (.reset ∈ s.schedule ∧ ∃ t, run (k + 1) s = .next t ∧ t.busy = false ∧ t.done = false) ∨
  (∃ off cause, run (k + 1) s = .fault (.busError off cause))

theorem core_run_succ_of_next (M : Host.Core) (k : Nat) (s u : M.State) (h : M.step s = .next u) :
    M.run (k + 1) s = M.run k u := by
  simp only [Host.Core.run, h]

theorem core_run_succ_of_fault (M : Host.Core) (k : Nat) (s : M.State) (f : M.Fault) (h : M.step s = .fault f) :
    M.run (k + 1) s = .fault f := by
  simp only [Host.Core.run, h]

theorem run_succ_of_next (k : Nat) (s u : State) (h : step s = .next u) : run (k + 1) s = run k u :=
  core_run_succ_of_next Sys2Proof.core k s u h

theorem run_succ_of_fault (k : Nat) (s : State) (f : Fault) (h : step s = .fault f) : run (k + 1) s = .fault f :=
  core_run_succ_of_fault Sys2Proof.core k s f h

theorem concludes_of_engineMoves (s : State) (turns : List Turn) (hbusy : s.busy = true) (h : EngineMoves s turns) :
    Concludes 0 s :=
  .inl ⟨s, _, rfl, hbusy, rfl, step_of_engineMoves s turns hbusy h, commit_busy _ _, commit_done _ _, turns, rfl⟩

theorem concludes_of_reset (s : State) (turns : List Turn) (h : s.schedule = .reset :: turns) : Concludes 0 s :=
  .inr (.inl ⟨h ▸ List.mem_cons_self, resetBlock { s with schedule := turns },
    run_succ_of_next 0 s _ (step_scheduled s .reset turns h), rfl, rfl⟩)

/-- A turn of the host that answers leaves the command pending with the result it had, and the turns that follow. -/
theorem concludes_of_hostTurn (k : Nat) (s u : State) (turns : List Turn) (hstep : step s = .next u)
    (hresult : commandResult u = commandResult s) (hs : s.schedule = .host :: turns) (hu : u.schedule = turns)
    (h : Concludes k u) : Concludes (k + 1) s := by
  have hrun (j : Nat) : run (j + 1) s = run j u := run_succ_of_next j s u hstep
  rcases h with ⟨t, v, ht, htb, htr, hv, hvb, hvd, hcommit⟩ | ⟨hmem, t, ht, htb, htd⟩ | ⟨off, cause, hfault⟩
  · exact .inl ⟨t, v, (hrun k).trans ht, htb, htr.trans hresult, hv, hvb, hvd, hresult ▸ hcommit⟩
  · have hlater : .reset ∈ s.schedule := by rw [hs, ← hu]; exact List.mem_cons_of_mem _ hmem
    exact .inr (.inl ⟨hlater, t, (hrun (k + 1)).trans ht, htb, htd⟩)
  · exact .inr (.inr ⟨off, cause, (hrun (k + 1)).trans hfault⟩)

/-- A turn of the host while a command runs answers with the command still pending, or is a bus error. -/
theorem step_host_of_busy (s : State) (turns : List Turn) (hbusy : s.busy = true) (hs : s.schedule = .host :: turns) :
    (∃ u, step s = .next u ∧ u.busy = true ∧ u.schedule = turns) ∨
      ∃ off cause, step s = .fault (.busError off cause) := by
  have hmoves : HostMoves s turns := .inl hs
  cases hp : s.program with
  | nil => exact .inl ⟨_, (step_of_hostMoves s turns hmoves).trans (hostTurn_nil _ hp), hbusy, rfl⟩
  | cons op rest =>
    have hstep := step_hostLine s op rest turns hp hmoves
    rcases busAccess_total (hostRequest s op) { s with program := rest, schedule := turns } with
      ⟨t, d, hbus⟩ | ⟨cause, hbus⟩
    · left
      obtain ⟨-, -, hschedule, -⟩ := busAccess_host _ _ t d hbus
      obtain ⟨-, -, -, -, -, hfinishBusy, hfinishSchedule⟩ := hostFinish_block op d t
      have htbusy : t.busy = true := by
        rcases busAccess_of_busy _ { s with program := rest, schedule := turns } t d hbusy hbus with rfl | ⟨sz, rfl⟩
        · exact hbusy
        · rw [countDraws_busy]; exact hbusy
      exact ⟨_, by rw [hstep, hbus, hostTake], hfinishBusy.trans htbusy, hfinishSchedule.trans hschedule⟩
    · exact .inr ⟨_, cause, by rw [hstep, hbus, hostTake]⟩

/-- Settles O55, by induction on the schedule: the engine's turn, scheduled or by default, and a reset conclude at once,
and a turn of the host faults or leaves the command as it was with one turn fewer. -/
theorem everyAcceptedCommandCompletes : Obligations.EveryAcceptedCommandCompletes := by
  suffices h : ∀ (schedule : List Turn) (s : State), s.schedule = schedule → s.busy = true →
      ∃ k, k ≤ schedule.length ∧ Concludes k s from fun s => h s.schedule s rfl
  intro schedule
  induction schedule with
  | nil => exact fun s hs hbusy => ⟨0, le_rfl, concludes_of_engineMoves s [] hbusy (.inr ⟨hs, rfl⟩)⟩
  | cons turn turns ih =>
    intro s hs hbusy
    cases turn with
    | engine => exact ⟨0, Nat.zero_le _, concludes_of_engineMoves s turns hbusy (.inl hs)⟩
    | reset => exact ⟨0, Nat.zero_le _, concludes_of_reset s turns hs⟩
    | host =>
      rcases step_host_of_busy s turns hbusy hs with ⟨u, hstep, hub, hus⟩ | ⟨off, cause, hstep⟩
      · obtain ⟨k, hk, hconcludes⟩ := ih u hus hub
        have hresult := commandResult_of_sameOperands (step_sameOperands_of_busy s u hbusy hstep hub)
        exact ⟨k + 1, Nat.succ_le_succ hk, concludes_of_hostTurn k s u turns hstep hresult hs hus hconcludes⟩
      · exact ⟨0, Nat.zero_le _, .inr (.inr ⟨off, cause, run_succ_of_fault 0 s _ hstep⟩)⟩

end Sys2Proof.Proofs
end
